-- ==== Sys2Proof/Word.lean ====
section
/-! DEFINITION. The words of the block: bytes, register words, and the closed sets the spec names (the phases, the
input events, the header record). Types only; their codes are computed in Sys2Proof/Decode.lean. -/

namespace Sys2Proof

/-- A byte, 0..255 (00_scope.md R12). -/
abbrev Byte := BitVec 8

/-- A byte string (00_scope.md R12): offset 0 is the head, the first byte received. -/
abbrev Bytes := List Byte

/-- The 32-bit pattern of an `int32`; its value is `BitVec.toInt`, two's complement (00_scope.md R12). -/
abbrev Word32 := BitVec 32

/-- The engine-loop states, the values 0..4 of the `phase` register (10_state.md R26: the reserved values 5, 6, 7
are "never written by any rule; a model's type has no such value"). -/
inductive Phase where
  /-- 0: blocked in a receive of at most 12 bytes. -/
  | awaitHeader
  /-- 1: a valid header is held; chunks are being accumulated. -/
  | reassembling
  /-- 2: exactly `hdr_length` bytes are held. -/
  | verifying
  /-- 3: the checksum matched; the payload is about to be handed over. -/
  | dispatching
  /-- 4: the loop has halted. -/
  | terminal
deriving DecidableEq, Repr

/-- The input events of 30_encoding.md R80, codes 0..7 in this order. -/
inductive Event where
  /-- 0: an internal step of the engine, from nobody. -/
  | tau
  /-- 1: the source answers the request with a datagram. -/
  | rxData (b : Bytes)
  /-- 2: the source answers that the receive failed, recoverably. -/
  | rxError
  /-- 3: the source answers that the receive timed out. -/
  | rxTimeout
  /-- 4: the source is permanently unusable. -/
  | rxFatal
  /-- 5: the host halts the loop. -/
  | shutdown
  /-- 6: the host resets the block. -/
  | reset
  /-- 7: the Sink takes the pending frame. -/
  | take
deriving DecidableEq, Repr

/-- The three header fields as 32-bit patterns (30_encoding.md R82; 00_scope.md R15 FrameHeader). -/
structure FrameHeader where
  magic : Word32
  length : Word32
  checksum : Word32
deriving DecidableEq, Repr

end Sys2Proof
end

