-- ==== Sys2Proof/Config.lean ====
section
/-! DEFINITION. What an implementation fixes: the fixed constants of 00_scope.md R6, the parameters of the CRC-32 of
42_verifier.md R161, the open parameters of 00_scope.md R7, and the free values of the dead registers. -/

namespace Sys2Proof

namespace Config

/-- `MAGIC` (00_scope.md R6): the sentinel the header's first field must equal. -/
def magic : Int := -114514

/-- `HEADER_SIZE` (00_scope.md R6). -/
def headerSize : Nat := 12

/-- `MAX_CHUNK_SIZE` (00_scope.md R6): most bytes requested in one receive while reassembling. -/
def maxChunkSize : Nat := 32767

/-- `CHECKSUM_DIVISOR` (00_scope.md R6). -/
def checksumDivisor : Nat := 100

/-- The CRC-32 polynomial in bit-reflected form (42_verifier.md R161; 92 D4). -/
def crcPoly : Word32 := 0xEDB88320#32

/-- The CRC-32 register's initial value (42_verifier.md R161). -/
def crcInit : Word32 := 0xFFFFFFFF#32

/-- The CRC-32's final exclusive-or (42_verifier.md R161). -/
def crcXorOut : Word32 := 0xFFFFFFFF#32

/-- The free values: what a header register holds once it is dead (10_state.md R27, "become *unspecified*"; 93 U9,
"any value"). No body: nothing can be proved of it. DESIGN CHOICE, safe; log 1. -/
opaque freeWord : Nat → Word32

end Config

/-- The open parameters of an instance (00_scope.md R7; 10_state.md R30). Fixed for the life of the instance: no
operation writes them. Log 5. -/
structure Params where
  /-- `MAX_FRAME_SIZE`, 0 .. 2^31 − 1: the type is the range. -/
  maxFrameSize : BitVec 31
  /-- `RECEIVE_TIMEOUT`: `none`, or `some d` for the positive duration of `d + 1` units of the source's own; only its
  presence is ever read (93 U2). -/
  receiveTimeout : Option Nat
  /-- `LISTEN_PORT`: no rule reads it. -/
  listenPort : BitVec 16
deriving DecidableEq, Repr

/-- The reference values of 00_scope.md R7. -/
def Params.reference : Params where
  maxFrameSize := 2147483647#31
  receiveTimeout := none
  listenPort := 5600#16

end Sys2Proof
end

