-- ==== Sys2Proof/Machine/State.lean ====
section
/-! DEFINITION. The state of the block (10_state.md R20), its output events, the reasons a step can stop, and the state
after reset (R36). Plain data throughout. -/

namespace Sys2Proof.Machine

/-- The ReceiveBuffer's contents (20_memory.md R50): (offset, byte) pairs, offsets strictly rising. A byte that is not
listed has no value (R54, "unspecified"). -/
abbrev Memory := List Host.Cell

/-- `term_cause` (10_state.md R29); the reserved value 3 is "never written". -/
inductive TermCause where
  /-- 0: the loop has not halted. -/
  | none
  /-- 1: the Datagram Source reported `RX_FATAL`. -/
  | socketFatal
  /-- 2: the host raised `SHUTDOWN`. -/
  | shutdown
deriving DecidableEq, Repr

/-- The sub-causes of `EV_MALFORMED_HEADER`, codes 1..4 (60_exceptions.md R231). -/
inductive HeaderDefect where
  | shortRead
  | badMagic
  | lengthOutOfBounds
  | readError
deriving DecidableEq, Repr

/-- The sub-causes of `EV_REASSEMBLY_FAILURE`, codes 1..2 (60_exceptions.md R231). -/
inductive ReassemblyDefect where
  | receiveError
  | timeout
deriving DecidableEq, Repr

/-- The event kinds of 60_exceptions.md R231 with their recorded values, as mathematical integers. -/
inductive OutEvent where
  /-- Code 1. -/
  | malformedHeader (sub : HeaderDefect)
  /-- Code 2: `got` is the rule's `have` (the value of `received`), `want` is `hdr_length`. -/
  | reassemblyFailure (sub : ReassemblyDefect) (got : Nat) (want : Int)
  /-- Code 3. -/
  | checksumMismatch (declared : Int) (computed : Nat) (length : Int)
  /-- Code 4: reserved, owned by the Sink; the block never emits it (R235). -/
  | decodeFailure
  /-- Code 5. -/
  | socketFatal
  /-- Code 6: the Sink invocation, with the verified bytes (R237). -/
  | frame (payload : Bytes)
  /-- Code 7: the acknowledgement of a shutdown (R237). -/
  | shutdown
deriving DecidableEq, Repr

/-- One item of the environment's trace (30_encoding.md R95). `urgent` is the `!` of the notation: the item is taken
before any pending internal operation; a plain item is taken after them. -/
structure Input where
  urgent : Bool
  event : Event
deriving DecidableEq, Repr

/-- The complete state. The last four fields are the model's own (INVENTORY.md, '## State'). -/
structure State where
  /-- `phase` (10_state.md R26). -/
  phase : Phase
  /-- x[0] (R22). -/
  hdrMagic : Word32
  /-- x[1] (R23). -/
  hdrLength : Word32
  /-- x[2] (R24). -/
  hdrChecksum : Word32
  /-- x[3], 31 bits (R25). -/
  received : BitVec 31
  /-- The ReceiveBuffer (20_memory.md R50). -/
  buf : Memory
  /-- `term_cause` (R29). -/
  termCause : TermCause
  /-- The Sink mailbox (R33). -/
  pending : Option Bytes
  /-- The output event stream, oldest first (60_exceptions.md R230). -/
  events : List OutEvent
  /-- The parameters of the instance (R30); no operation writes them. -/
  cfg : Params
  /-- The environment's trace still to come (93 U6). The model's own; log 3. -/
  inputs : List Input
  /-- The payloads the Sink has taken since the last reset, oldest first (00_scope.md R14 (d)). The model's own;
  log 7. -/
  taken : List Bytes
  /-- The receive requests the engine has made since the last reset, by their `max_bytes`, oldest first (00_scope.md
  R14 (a)). The model's own; log 13. -/
  requests : List Nat
  /-- How many free values have been used. The model's own; log 1. -/
  freeCount : Nat
deriving DecidableEq, Repr

/-- Why the machine stops with a fault. No reachable state raises one: 20_memory.md R52 and R53 say every use meets the
access's condition. -/
inductive Fault where
  /-- Raised by `VER.PASS`, `VER.FAIL` and `ENG.DISPATCH` when `MemRead(0, hdr_length)` is outside its domain, so that
  the bytes have no value (20_memory.md R52; 93 U8). Safe. -/
  | unspecifiedRead
  /-- Raised by `RSM.APPEND` when `MemWrite` would pass the buffer's capacity (20_memory.md R53). Safe. -/
  | bufferOverrun
deriving DecidableEq, Repr

/-- Why the model has no step. -/
inductive Refusal where
  /-- Raised by an arm of `exec` for an instruction without a meaning; no arm does. Safe. -/
  | notModelled (mnemonic : String)
  /-- Raised by a meaning whose "Selected by" condition does not hold: "Pairs not in the table cannot occur"
  (30_encoding.md R81). No step raises it. Safe. -/
  | notSelected
  /-- Raised by a step when the pair of the phase and the next event is not enabled: a blocked engine with no answer, or a
  `TAKE` with nothing pending. It is R81's "no step" and no error: nothing happens, and the engine or the Sink waits
  (93 U14; 43_engine_loop.md R182). Safe; log 6. -/
  | noStep
  /-- Raised by a step on a word that is no word of an operation (93 U14). No step meets one. Safe. -/
  | undecodable
  /-- Raised by a step on an answer delivered while `req = none`, a breach of the environment's contract
  (60_exceptions.md R245). Safe. -/
  | answerWithoutRequest
  /-- Raised by a step on `RX_TIMEOUT` with `RECEIVE_TIMEOUT = none`, a breach of the environment's contract
  (60_exceptions.md R245). Safe. -/
  | timeoutNotConfigured
deriving DecidableEq, Repr

/-- The outcome of a step or of a meaning. -/
abbrev Result := Host.Outcome State Fault Refusal

/-- The machine right after reset (10_state.md R36), the reference instance. The header registers, which R36 leaves
unspecified, are 0 (DESIGN CHOICE, unsafe; log 1); no byte of the buffer has a value (log 2); the model's own fields
are empty (logs 1, 3, 7), but for the request that phase 0 makes at once (44_collaborators.md R220; log 13). -/
def State.reset : State where
  phase := .awaitHeader
  hdrMagic := 0#32
  hdrLength := 0#32
  hdrChecksum := 0#32
  received := 0#31
  buf := []
  termCause := .none
  pending := none
  events := []
  cfg := Params.reference
  inputs := []
  taken := []
  requests := [Config.headerSize]
  freeCount := 0

end Sys2Proof.Machine
end

