-- ==== Sys2Proof/Machine/Checksum.lean ====
section
/-! DEFINITION. The Integrity Verifier's pure functions (42_verifier.md R160 to R163): CRC-32, the division, `verify`. -/

namespace Sys2Proof.Machine

/-- One round of R161's inner loop. -/
def crcBit (c : Word32) : Word32 :=
  if c.getLsbD 0 then (c >>> 1) ^^^ Config.crcPoly else c >>> 1

/-- R161's inner loop: eight rounds. -/
def crcEight (c : Word32) : Word32 :=
  crcBit (crcBit (crcBit (crcBit (crcBit (crcBit (crcBit (crcBit c)))))))

/-- One byte of R161's outer loop: the byte is zero-extended to 32 bits. -/
def crcByte (c : Word32) (b : Byte) : Word32 := crcEight (c ^^^ b.setWidth 32)

/-- R161's outer loop from a given register value, in ascending offset order. -/
def crcUpdate (c : Word32) : Bytes → Word32
  | [] => c
  | b :: p => crcUpdate (crcByte c b) p

/-- `crc32` (42_verifier.md R161). -/
def crc32 (p : Bytes) : Word32 := crcUpdate Config.crcInit p ^^^ Config.crcXorOut

/-- The table entry `T[i]` of R161's byte-table form: the inner loop on `c = i`. -/
def crcTable (i : Byte) : Word32 := crcEight (i.setWidth 32)

/-- `c div CHECKSUM_DIVISOR` on the unsigned value (42_verifier.md R162; 92 D5). -/
def divideCrc (c : Word32) : Nat := c.toNat / Config.checksumDivisor

/-- The computed checksum of a payload (42_verifier.md R160). -/
def checksumOf (p : Bytes) : Nat := divideCrc (crc32 p)

/-- `verify` (42_verifier.md R160): a comparison of mathematical integers. -/
def verify (p : Bytes) (declared : Word32) : Bool := (checksumOf p : Int) == declared.toInt

end Sys2Proof.Machine
end

