-- ==== Sys2Proof/Syntax.lean ====
section
/-! DEFINITION. The 18 operations of spec/opcode_table.json, one constructor each (30_encoding.md R81, R91). An operand
is what the row's selector and datagram leave open: the phase bits of a row whose mask is 0x07, the event of
`ENG.HALTED` (mask 0x38), the datagram, or the header decoded from its first 12 bytes. -/

namespace Sys2Proof

/-- An operation: one atomic transition (00_scope.md R11, R15). -/
inductive Instr where
  /-- `ENG.RESET` (R270), in the phase `p` of the selector. -/
  | engReset (p : Phase)
  /-- `ENG.HALTED` (R196), on the event `e`. -/
  | engHalted (e : Event)
  /-- `ENG.FATAL` (R194), in the phase `p` of the selector. -/
  | engFatal (p : Phase)
  /-- `ENG.SHUTDOWN` (R195), in the phase `p` of the selector. -/
  | engShutdown (p : Phase)
  /-- `HDR.SHORT` (R112), on a datagram of fewer than 12 bytes. -/
  | hdrShort (b : Bytes)
  /-- `HDR.BADMAGIC` (R113), on a header whose magic is not the sentinel. -/
  | hdrBadmagic (h : FrameHeader)
  /-- `RSM.REJECT` (R131), on a header whose length is out of bounds. -/
  | rsmReject (h : FrameHeader)
  /-- `RSM.START` (R132), on a header that is accepted. -/
  | rsmStart (h : FrameHeader)
  /-- `HDR.READERR` (R114). -/
  | hdrReaderr
  /-- `HDR.IDLE` (R115). -/
  | hdrIdle
  /-- `RSM.APPEND` (R134), on the datagram as the source delivered it, before the clamp. -/
  | rsmAppend (b : Bytes)
  /-- `RSM.ABORT` (R135). -/
  | rsmAbort
  /-- `RSM.TIMEOUT` (R137). -/
  | rsmTimeout
  /-- `RSM.COMPLETE` (R136). -/
  | rsmComplete
  /-- `VER.PASS` (R164). -/
  | verPass
  /-- `VER.FAIL` (R165). -/
  | verFail
  /-- `ENG.DISPATCH` (R192). -/
  | engDispatch
  /-- `SINK.TAKE` (R217), in the phase `p` of the selector. -/
  | sinkTake (p : Phase)
deriving DecidableEq, Repr

end Sys2Proof
end

