-- ==== Sys2Proof/WellFormed.lean ====
section
/-! DEFINITION. Which operations the encoding admits, whatever the state (the part of 30_encoding.md R81's conditions
that is on the word alone). -/

namespace Sys2Proof

/-- The header's first field is the sentinel, all 32 bits compared (40_header_codec.md R110, R113). -/
def FrameHeader.magicGood (h : FrameHeader) : Bool := h.magic.toInt == Config.magic

/-- The check of an operation's operands against its row of 30_encoding.md R81. -/
def Instr.wf : Instr → Bool
  | .engHalted e => e != .reset && e != .take
  | .engFatal p => p != .terminal
  | .engShutdown p => p != .terminal
  | .hdrShort b => decide (b.length < Config.headerSize)
  | .hdrBadmagic h => !h.magicGood
  | .rsmReject h => h.magicGood
  | .rsmStart h => h.magicGood
  | .engReset _ => true
  | .hdrReaderr => true
  | .hdrIdle => true
  | .rsmAppend _ => true
  | .rsmAbort => true
  | .rsmTimeout => true
  | .rsmComplete => true
  | .verPass => true
  | .verFail => true
  | .engDispatch => true
  | .sinkTake _ => true

end Sys2Proof
end

