-- ==== Sys2Proof/Decode.lean ====
section
/-! DEFINITION. The decoder and the encoder. A word is a byte list: one selector byte, `sel[5:3]` the phase and
`sel[2:0]` the event (30_encoding.md R80), then the delivered datagram when the event is `RX_DATA`. Six rows share a
selector with another row; R81 tells them apart by the datagram and by conditions on the state, so the decoder also
reads those conditions (`Conditions`). Total: what it does not select it rejects by name. -/

namespace Sys2Proof

/-! ## Codes (10_state.md R26; 30_encoding.md R80) -/

/-- The 3-bit code of a phase (10_state.md R26). -/
def Phase.code : Phase → BitVec 3
  | .awaitHeader => 0#3
  | .reassembling => 1#3
  | .verifying => 2#3
  | .dispatching => 3#3
  | .terminal => 4#3

/-- The phase of a code; 5, 6, 7 are reserved (10_state.md R26). -/
def phaseOfCode (c : BitVec 3) : Option Phase :=
  match c.toNat with
  | 0 => some .awaitHeader
  | 1 => some .reassembling
  | 2 => some .verifying
  | 3 => some .dispatching
  | 4 => some .terminal
  | _ => none

/-- The 3-bit code of an event (30_encoding.md R80). -/
def Event.code : Event → BitVec 3
  | .tau => 0#3
  | .rxData _ => 1#3
  | .rxError => 2#3
  | .rxTimeout => 3#3
  | .rxFatal => 4#3
  | .shutdown => 5#3
  | .reset => 6#3
  | .take => 7#3

/-- The bytes an event carries: `RX_DATA` alone carries any (30_encoding.md R80). -/
def Event.datagram : Event → Bytes
  | .rxData b => b
  | _ => []

/-- Is the event an answer to the receive request (44_collaborators.md R210; `RX_FATAL` may come at any time)? -/
def Event.isAnswer : Event → Bool
  | .rxData _ => true
  | .rxError => true
  | .rxTimeout => true
  | _ => false

/-- The event of a code and the bytes beside it; an event that carries nothing admits no bytes. -/
def eventOfCode (c : BitVec 3) (b : Bytes) : Option Event :=
  match c.toNat, b with
  | 1, b => some (.rxData b)
  | 0, [] => some .tau
  | 2, [] => some .rxError
  | 3, [] => some .rxTimeout
  | 4, [] => some .rxFatal
  | 5, [] => some .shutdown
  | 6, [] => some .reset
  | 7, [] => some .take
  | _, _ => none

/-- The selector `sel = phase·8 + event` as a byte (30_encoding.md R80). Bits 7 and 6 of the byte are no part of the
6-bit selector and are 0 (DESIGN CHOICE, safe; log 4). -/
def selector (p : Phase) (e : Event) : Byte := 0#2 ++ p.code ++ e.code

/-- The word of an event met in a phase: the selector, then the datagram. -/
def wordOf (p : Phase) (e : Event) : Bytes := selector p e :: e.datagram

/-! ## Header fields (00_scope.md R12; 30_encoding.md R82, R83) -/

/-- The byte at offset `o`; every use is at an offset the string has. -/
def byteAt (b : Bytes) (o : Nat) : Byte := b.getD o 0#8

/-- `u32be(b, o)`, the unsigned big-endian reading of four bytes (00_scope.md R12). -/
def u32be (b : Bytes) (o : Nat) : Nat :=
  (byteAt b o).toNat * 2 ^ 24 + (byteAt b (o + 1)).toNat * 2 ^ 16 +
    (byteAt b (o + 2)).toNat * 2 ^ 8 + (byteAt b (o + 3)).toNat

/-- The 32-bit pattern of the field at offset `o` (30_encoding.md R83). -/
def fieldAt (b : Bytes) (o : Nat) : Word32 := BitVec.ofNat 32 (u32be b o)

/-- `s32be(b, o)`: the pattern read as two's complement (00_scope.md R12). -/
def s32be (b : Bytes) (o : Nat) : Int := (fieldAt b o).toInt

/-- `clamp(b, m) = b[0 .. min(len(b), m))` (44_collaborators.md R212). -/
def clamp (b : Bytes) (m : Nat) : Bytes := b.take (min b.length m)

/-- The three fields at the fixed offsets 0, 4, 8 (30_encoding.md R82). -/
def headerAt (b : Bytes) : FrameHeader := ⟨fieldAt b 0, fieldAt b 4, fieldAt b 8⟩

/-- The one reject reason of `parse_header` (40_header_codec.md R110). -/
inductive RejectReason where
  | badMagic
deriving DecidableEq, Repr

/-- `parse_header` (40_header_codec.md R110), called on 12-byte strings only. It does not look at the length field's
magnitude (R111 (b)). -/
def parseHeader (h : Bytes) : Except RejectReason FrameHeader :=
  if (headerAt h).magicGood then .ok (headerAt h) else .error .badMagic

/-- `0 ≤ length ≤ MAX_FRAME_SIZE`, a signed comparison (41_reassembler.md R131, R132; 42_verifier.md R168). -/
def lengthInBounds (maxFrameSize : BitVec 31) (length : Word32) : Bool :=
  decide (0 ≤ length.toInt) && decide (length.toInt ≤ maxFrameSize.toNat)

/-! ## The decoder (30_encoding.md R81) -/

/-- What R81's condition column reads besides the word. -/
structure Conditions where
  /-- The parameter `MAX_FRAME_SIZE`. -/
  maxFrameSize : BitVec 31
  /-- `RECEIVE_TIMEOUT ≠ none`. -/
  timeoutConfigured : Bool
  /-- `received < hdr_length`. -/
  incomplete : Bool
  /-- `received = hdr_length`. -/
  complete : Bool
  /-- `crc32(buf[0..hdr_length)) div 100 = hdr_checksum`. -/
  checksumOk : Bool
  /-- `pending ≠ none`. -/
  pendingFull : Bool
deriving DecidableEq, Repr

/-- Why a word selects no operation. -/
inductive DecodeError where
  /-- The word has no selector byte. -/
  | noSelector
  /-- Bits 7 and 6 of the selector byte are not 0. -/
  | reservedSelector
  /-- The phase field is 5, 6 or 7 (10_state.md R26, reserved; 93 U14). -/
  | reservedPhase
  /-- Bytes follow an event that carries none. -/
  | surplusBytes
  /-- An answer while `req = none` (60_exceptions.md R245). -/
  | answerWithoutRequest
  /-- `RX_TIMEOUT` with `RECEIVE_TIMEOUT = none` (60_exceptions.md R245). -/
  | timeoutNotConfigured
  /-- `TAU` with no internal operation enabled (93 U14: not enabled, no error). -/
  | nothingToDo
  /-- `TAKE` with `pending = none` (93 U14: not enabled, no error). -/
  | nothingPending
deriving DecidableEq, Repr

/-- A phase-0 datagram, classified by the first test that fails: length, then magic, then bounds (60_exceptions.md R242;
30_encoding.md R88). The engine sees `clamp(b, 12)` (R85). -/
def decodeHeader (k : Conditions) (b : Bytes) : Instr :=
  if (clamp b Config.headerSize).length < Config.headerSize then .hdrShort b
  else
    match parseHeader (clamp b Config.headerSize) with
    | .error .badMagic => .hdrBadmagic (headerAt (clamp b Config.headerSize))
    | .ok h => if lengthInBounds k.maxFrameSize h.length then .rsmStart h else .rsmReject h

/-- The rows of phase 0 that are not for every phase. -/
def selectAwaitHeader (k : Conditions) : Event → Except DecodeError Instr
  | .rxData b => .ok (decodeHeader k b)
  | .rxError => .ok .hdrReaderr
  | .rxTimeout => if k.timeoutConfigured then .ok .hdrIdle else .error .timeoutNotConfigured
  | _ => .error .nothingToDo

/-- The rows of phase 1 that are not for every phase. -/
def selectReassembling (k : Conditions) : Event → Except DecodeError Instr
  | .rxData b => if k.incomplete then .ok (.rsmAppend b) else .error .answerWithoutRequest
  | .rxError => if k.incomplete then .ok .rsmAbort else .error .answerWithoutRequest
  | .rxTimeout =>
    if k.incomplete then
      if k.timeoutConfigured then .ok .rsmTimeout else .error .timeoutNotConfigured
    else .error .answerWithoutRequest
  | _ => if k.complete then .ok .rsmComplete else .error .nothingToDo

/-- The rows of phases 2 and 3 that are not for every phase: `tauOp` is the phase's internal operation, and no request
is outstanding. -/
def selectInternal (tauOp : Instr) (e : Event) : Except DecodeError Instr :=
  if e.isAnswer then .error .answerWithoutRequest else .ok tauOp

/-- The complete decode of R81, in its priority order within each phase. -/
def select (k : Conditions) (p : Phase) (e : Event) : Except DecodeError Instr :=
  match e with
  | .reset => .ok (.engReset p)
  | .take => if k.pendingFull then .ok (.sinkTake p) else .error .nothingPending
  | e =>
    match p with
    | .terminal => .ok (.engHalted e)
    | p =>
      match e with
      | .rxFatal => .ok (.engFatal p)
      | .shutdown => .ok (.engShutdown p)
      | e =>
        match p with
        | .awaitHeader => selectAwaitHeader k e
        | .reassembling => selectReassembling k e
        | .verifying => selectInternal (if k.checksumOk then .verPass else .verFail) e
        | _ => selectInternal .engDispatch e

/-- The phase and event a word spells. -/
def decodeSelector : Bytes → Except DecodeError (Phase × Event)
  | [] => .error .noSelector
  | sel :: b =>
    if sel.extractLsb' 6 2 != 0#2 then .error .reservedSelector
    else
      match phaseOfCode (sel.extractLsb' 3 3) with
      | none => .error .reservedPhase
      | some p =>
        match eventOfCode (sel.extractLsb' 0 3) b with
        | none => .error .surplusBytes
        | some e => .ok (p, e)

/-- The decoder: the operation a word selects under the conditions `k`. -/
def decode (k : Conditions) (w : Bytes) : Except DecodeError Instr :=
  match decodeSelector w with
  | .error r => .error r
  | .ok (p, e) => select k p e

/-! ## The encoder (30_encoding.md R80, R82) -/

/-- The four bytes of a field, most significant first (30_encoding.md R83). -/
def encodeField (w : Word32) : Bytes :=
  [BitVec.ofNat 8 (w.toNat / 2 ^ 24), BitVec.ofNat 8 (w.toNat / 2 ^ 16),
   BitVec.ofNat 8 (w.toNat / 2 ^ 8), BitVec.ofNat 8 w.toNat]

/-- The 12 bytes of a header (30_encoding.md R82). -/
def encodeHeader (h : FrameHeader) : Bytes :=
  encodeField h.magic ++ encodeField h.length ++ encodeField h.checksum

/-- The phase and event that select an operation. -/
def Instr.selection : Instr → Phase × Event
  | .engReset p => (p, .reset)
  | .engHalted e => (.terminal, e)
  | .engFatal p => (p, .rxFatal)
  | .engShutdown p => (p, .shutdown)
  | .hdrShort b => (.awaitHeader, .rxData b)
  | .hdrBadmagic h => (.awaitHeader, .rxData (encodeHeader h))
  | .rsmReject h => (.awaitHeader, .rxData (encodeHeader h))
  | .rsmStart h => (.awaitHeader, .rxData (encodeHeader h))
  | .hdrReaderr => (.awaitHeader, .rxError)
  | .hdrIdle => (.awaitHeader, .rxTimeout)
  | .rsmAppend b => (.reassembling, .rxData b)
  | .rsmAbort => (.reassembling, .rxError)
  | .rsmTimeout => (.reassembling, .rxTimeout)
  | .rsmComplete => (.reassembling, .tau)
  | .verPass => (.verifying, .tau)
  | .verFail => (.verifying, .tau)
  | .engDispatch => (.dispatching, .tau)
  | .sinkTake p => (p, .take)

/-- The word of an operation. -/
def encode (i : Instr) : Bytes := wordOf i.selection.1 i.selection.2

/-- The part of R81's condition column that is on the state: under which conditions the operation can be selected. -/
def Instr.admittedBy (k : Conditions) : Instr → Bool
  | .engReset _ => true
  | .engHalted _ => true
  | .engFatal _ => true
  | .engShutdown _ => true
  | .hdrShort _ => true
  | .hdrBadmagic _ => true
  | .rsmReject h => !lengthInBounds k.maxFrameSize h.length
  | .rsmStart h => lengthInBounds k.maxFrameSize h.length
  | .hdrReaderr => true
  | .hdrIdle => k.timeoutConfigured
  | .rsmAppend _ => k.incomplete
  | .rsmAbort => k.incomplete
  | .rsmTimeout => k.incomplete && k.timeoutConfigured
  | .rsmComplete => k.complete
  | .verPass => k.checksumOk
  | .verFail => !k.checksumOk
  | .engDispatch => true
  | .sinkTake _ => k.pendingFull

/-! ## Words of the opcode table -/

/-- The bytes of a table word of `nbits` bits, the first byte in bits 7..0. A word of 96 bits whose bits 95..64 are the
sentinel is the table's `encoding` string: the header `H` alone, bit 95 first (30_encoding.md R82, R91), delivered in
phase 0. DESIGN CHOICE, safe; log 4. -/
def tableBytes (nbits w : Nat) : Bytes :=
  if nbits = 96 ∧ w / 2 ^ 64 % 2 ^ 32 = 0xFFFE40AE then
    wordOf .awaitHeader (.rxData (encodeHeader
      ⟨BitVec.ofNat 32 (w / 2 ^ 64), BitVec.ofNat 32 (w / 2 ^ 32), BitVec.ofNat 32 w⟩))
  else
    (List.range ((nbits + 7) / 8)).map fun n => BitVec.ofNat 8 (w % 2 ^ nbits / 2 ^ (8 * n))

/-- The conditions under which a table word is read: those its row names, in the reference instance with a receive
timeout. Of the two rows of selector 0x10 the one that passes is read (log 4). -/
def Conditions.forTable (e : Event) : Conditions where
  maxFrameSize := Params.reference.maxFrameSize
  timeoutConfigured := true
  incomplete := e.isAnswer
  complete := !e.isAnswer
  checksumOk := true
  pendingFull := true

/-- Conditions under which every internal operation is enabled: a complete, verified frame in the reference instance, no
timeout, an empty mailbox. -/
def Conditions.frameComplete : Conditions where
  maxFrameSize := Params.reference.maxFrameSize
  timeoutConfigured := false
  incomplete := false
  complete := true
  checksumOk := true
  pendingFull := false

/-- The instruction the decoder reads from a word of the opcode table. -/
def decodeTableWord (nbits w : Nat) : Option Instr :=
  match decodeSelector (tableBytes nbits w) with
  | .error _ => none
  | .ok (p, e) => (select (Conditions.forTable e) p e).toOption

end Sys2Proof
end

