-- ==== Sys2Proof/Machine/Ops.lean ====
section
/-! DEFINITION. The named operations over the buffer and the registers: memory access (20_memory.md R52, R53), the
buffer reset (R54), the event stream (60_exceptions.md R230), the error entry (R239), the halt (43_engine_loop.md R194,
R195), the reset (70_reset_and_hazards.md R270) and the guard of "Selected by". There is no return from an error to
model: "There is no return operation: recovery is the transition to phase 0 itself" (60_exceptions.md R240). -/

namespace Sys2Proof.Machine

/-! ## Memory -/

/-- What a byte that is not listed reads as: no value (20_memory.md R54; 93 U8). DESIGN CHOICE, safe; log 2. -/
def Memory.unlisted : Option Byte := none

/-- The byte at offset `a`. -/
def Memory.readByte : Memory → Nat → Option Byte
  | [], _ => Memory.unlisted
  | (x, w) :: m, a => if a = x then some w else Memory.readByte m a

/-- Sets the byte at offset `a`, keeping the offsets rising. -/
def Memory.writeByte : Memory → Nat → Byte → Memory
  | [], a, v => [(a, v)]
  | (x, w) :: m, a, v =>
    if a < x then (a, v) :: (x, w) :: m
    else if a = x then (a, v) :: m
    else (x, w) :: Memory.writeByte m a v

/-- The `n` bytes from offset `a`, if every one has a value. -/
def Memory.readBytes (m : Memory) (a : Nat) : Nat → Option Bytes
  | 0 => some []
  | n + 1 =>
    match m.readByte a, Memory.readBytes m (a + 1) n with
    | some v, some vs => some (v :: vs)
    | _, _ => none

/-- Sets the bytes from offset `a`, in ascending order (20_memory.md R53). -/
def Memory.writeBytes (m : Memory) (a : Nat) : Bytes → Memory
  | [] => m
  | v :: vs => Memory.writeBytes (m.writeByte a v) (a + 1) vs

/-- The canonical form: offsets strictly rising (an unlisted byte has no value, so no entry can equal it). -/
def Memory.wf : Memory → Bool
  | [] => true
  | [_] => true
  | (a, _) :: (b, w) :: m => decide (a < b) && Memory.wf ((b, w) :: m)

/-- `MemRead(addr, n)`: defined only when `addr + n ≤ received` (20_memory.md R52). -/
def memRead (s : State) (addr n : Nat) : Option Bytes :=
  if addr + n ≤ s.received.toNat then s.buf.readBytes addr n else none

/-- `MemWrite(addr, len(v), v)`: defined only when it stays inside the capacity (20_memory.md R53). -/
def memWrite (s : State) (addr : Nat) (v : Bytes) : Option State :=
  if addr + v.length ≤ s.cfg.maxFrameSize.toNat then some { s with buf := s.buf.writeBytes addr v } else none

/-! ## Events, errors, halts, reset -/

/-- `emit E(info)`: appends one event (00_scope.md R13; 60_exceptions.md R230). -/
def State.emit (s : State) (e : OutEvent) : State := { s with events := s.events ++ [e] }

/-- The end of a frame attempt, on a transition into phase 0 or 4: `received` becomes 0 (20_memory.md R54), and the
header registers and the bytes of `buf` become unspecified (10_state.md R27): free values and no value. -/
def State.endAttempt (s : State) : State :=
  { s with
    received := 0#31
    buf := []
    hdrMagic := Config.freeWord s.freeCount
    hdrLength := Config.freeWord (s.freeCount + 1)
    hdrChecksum := Config.freeWord (s.freeCount + 2)
    freeCount := s.freeCount + 3 }

/-- TAKING AN EXCEPTION: what a recoverable error does to the state (60_exceptions.md R239): the event is appended,
`received <- 0`, `phase <- 0`, the header registers and `buf` become dead, `pending` and `term_cause` are unchanged;
nothing is saved. In phase 0 the registers and the buffer are dead already (10_state.md R27), and nothing more is
written to them (41_reassembler.md R131, "no register is written"). -/
def State.recover (s : State) (e : OutEvent) : State :=
  match s.phase with
  | .awaitHeader => { s.emit e with received := 0#31 }
  | _ => { (s.emit e).endAttempt with phase := .awaitHeader }

/-- Halting (43_engine_loop.md R194, R195): the event, `received <- 0`, the cause, phase 4. `pending` is left as it
is. -/
def State.halt (s : State) (c : TermCause) (e : OutEvent) : State :=
  { (s.emit e).endAttempt with termCause := c, phase := .terminal }

/-- `ENG.RESET`'s effect (70_reset_and_hazards.md R270): the event stream starts again, empty; so do the records of
the Sink's takes and of the requests (logs 7, 13). The parameters stay (10_state.md R30) and so does the environment's trace. -/
def State.resetBlock (s : State) : State :=
  { s.endAttempt with
    phase := .awaitHeader
    termCause := .none
    pending := none
    events := []
    taken := []
    requests := [] }

/-- A meaning runs only when its rule's "Selected by" holds; otherwise the pair is not in R81's table and there is no
step (30_encoding.md R81; 93 U14). -/
def whenSelected (c : Bool) (r : Result) : Result := if c then r else .refused .notSelected

/-! ## Codes (10_state.md R29; 60_exceptions.md R231; 92 D16) -/

/-- The 2-bit code of `term_cause` (10_state.md R29). -/
def TermCause.code : TermCause → BitVec 2
  | .none => 0#2
  | .socketFatal => 1#2
  | .shutdown => 2#2

/-- The event's code (60_exceptions.md R231). -/
def OutEvent.code : OutEvent → Nat
  | .malformedHeader _ => 1
  | .reassemblyFailure _ _ _ => 2
  | .checksumMismatch _ _ _ => 3
  | .decodeFailure => 4
  | .socketFatal => 5
  | .frame _ => 6
  | .shutdown => 7

/-- The event's sub-cause code, where it has one (60_exceptions.md R231). -/
def OutEvent.subCode : OutEvent → Option Nat
  | .malformedHeader .shortRead => some 1
  | .malformedHeader .badMagic => some 2
  | .malformedHeader .lengthOutOfBounds => some 3
  | .malformedHeader .readError => some 4
  | .reassemblyFailure .receiveError _ _ => some 1
  | .reassemblyFailure .timeout _ _ => some 2
  | _ => none

/-- Does the event stop the engine loop (60_exceptions.md R231, column "fatal")? `EV_SHUTDOWN` halts and is no error. -/
def OutEvent.fatal : OutEvent → Bool
  | .socketFatal => true
  | _ => false

end Sys2Proof.Machine
end

