-- ==== Sys2Proof/Machine/Operands.lean ====
section
/-! DEFINITION. What the operations read: the numbered data registers (10_state.md R21), the request and its size
(41_reassembler.md R133; 43_engine_loop.md R181), the chunk of an answer (44_collaborators.md R212) and the payload
(42_verifier.md R164). -/

namespace Sys2Proof.Machine

/-- `hdr_length` as the integer it stands for (10_state.md R23). -/
def State.lengthVal (s : State) : Int := s.hdrLength.toInt

/-- `x[i]`, the value of data register `i` (10_state.md R21; 00_scope.md R13). -/
def State.dataReg (s : State) (i : Fin 4) : Int :=
  match i with
  | 0 => s.hdrMagic.toInt
  | 1 => s.lengthVal
  | 2 => s.hdrChecksum.toInt
  | 3 => s.received.toNat

/-- `received < hdr_length` (30_encoding.md R81). -/
def State.incomplete (s : State) : Bool := decide ((s.received.toNat : Int) < s.lengthVal)

/-- `received = hdr_length` (30_encoding.md R81). -/
def State.complete (s : State) : Bool := decide ((s.received.toNat : Int) = s.lengthVal)

/-- `want = min(MAX_CHUNK_SIZE, hdr_length − received)` (41_reassembler.md R133). -/
def State.want (s : State) : Nat := min Config.maxChunkSize (s.lengthVal - s.received.toNat).toNat

/-- `req`, the outstanding receive request (43_engine_loop.md R181): a function of the state. -/
def State.request (s : State) : Option Nat :=
  match s.phase with
  | .awaitHeader => some Config.headerSize
  | .reassembling => if s.incomplete then some s.want else none
  | _ => none

/-- The bytes `RSM.APPEND` uses of an answer: `clamp(b, want)` (41_reassembler.md R134). -/
def State.chunk (s : State) (b : Bytes) : Bytes := clamp b s.want

/-- `MemRead(0, hdr_length)`, the assembled payload (42_verifier.md R164; 43_engine_loop.md R192). -/
def State.payload (s : State) : Option Bytes :=
  if 0 ≤ s.lengthVal then memRead s 0 s.lengthVal.toNat else none

end Sys2Proof.Machine
end

