-- ==== Sys2Proof/Machine/Flags.lean ====
section
/-! DEFINITION. The block has no flags and no condition codes (10_state.md R28). What stands in their place are the
conditions of R81's condition column, computed here from the state. -/

namespace Sys2Proof.Machine

/-- `crc32(buf[0..hdr_length)) div 100 = hdr_checksum` (30_encoding.md R81). False where the payload cannot be read; the
meaning of `VER.FAIL` then faults. -/
def State.checksumOk (s : State) : Bool :=
  match s.payload with
  | some p => verify p s.hdrChecksum
  | none => false

/-- The conditions the decoder reads in the state `s`. -/
def State.conditions (s : State) : Conditions where
  maxFrameSize := s.cfg.maxFrameSize
  timeoutConfigured := s.cfg.receiveTimeout.isSome
  incomplete := s.incomplete
  complete := s.complete
  checksumOk := s.checksumOk
  pendingFull := s.pending.isSome

/-- An internal operation is enabled (43_engine_loop.md R183): phases 2 and 3, and phase 1 with
`received = hdr_length`. -/
def State.tauEnabled (s : State) : Bool :=
  match s.phase with
  | .reassembling => s.complete
  | .verifying => true
  | .dispatching => true
  | _ => false

end Sys2Proof.Machine
end

