-- ==== Sys2Proof/Machine/Engine.lean ====
section
/-! DEFINITION. The meanings of the Engine Loop's own operations (43_engine_loop.md R192 to R196;
70_reset_and_hazards.md R270). -/

namespace Sys2Proof.Machine

/-- `ENG.DISPATCH` (43_engine_loop.md R192): the event is the Sink invocation; the mailbox is overwritten with a copy
(20_memory.md R57). -/
def execEngDispatch (s : State) : Result :=
  whenSelected (s.phase == .dispatching)
    (match s.payload with
    | none => .fault .unspecifiedRead
    | some p => .next { (s.emit (.frame p)).endAttempt with pending := some p, phase := .awaitHeader })

/-- `ENG.FATAL` (43_engine_loop.md R194). -/
def execEngFatal (s : State) : Result :=
  whenSelected (s.phase != .terminal) (.next (s.halt .socketFatal .socketFatal))

/-- `ENG.SHUTDOWN` (43_engine_loop.md R195). -/
def execEngShutdown (s : State) : Result :=
  whenSelected (s.phase != .terminal) (.next (s.halt .shutdown .shutdown))

/-- `ENG.HALTED` (43_engine_loop.md R196): "no state change, no event", on any event except `RESET` and `TAKE`. -/
def execEngHalted (e : Event) (s : State) : Result :=
  whenSelected (s.phase == .terminal && e != .reset && e != .take) (.next s)

/-- `ENG.RESET` (70_reset_and_hazards.md R270): selected in any phase. -/
def execEngReset (s : State) : Result := .next s.resetBlock

end Sys2Proof.Machine
end

