-- ==== Sys2Proof/Machine/HeaderCodec.lean ====
section
/-! DEFINITION. The meanings of the phase-0 operations that start no frame attempt (40_header_codec.md). -/

namespace Sys2Proof.Machine

/-- `HDR.SHORT` (40_header_codec.md R112). -/
def execHdrShort (b : Bytes) (s : State) : Result :=
  whenSelected (s.phase == .awaitHeader && decide ((clamp b Config.headerSize).length < Config.headerSize))
    (.next (s.recover (.malformedHeader .shortRead)))

/-- `HDR.BADMAGIC` (40_header_codec.md R113). -/
def execHdrBadmagic (h : FrameHeader) (s : State) : Result :=
  whenSelected (s.phase == .awaitHeader && !h.magicGood) (.next (s.recover (.malformedHeader .badMagic)))

/-- `HDR.READERR` (40_header_codec.md R114). -/
def execHdrReaderr (s : State) : Result :=
  whenSelected (s.phase == .awaitHeader) (.next (s.recover (.malformedHeader .readError)))

/-- `HDR.IDLE` (40_header_codec.md R115): "no state change, no event". -/
def execHdrIdle (s : State) : Result :=
  whenSelected (s.phase == .awaitHeader && s.cfg.receiveTimeout.isSome) (.next { s with phase := .awaitHeader })

end Sys2Proof.Machine
end

