-- ==== Sys2Proof/Machine/Reassembler.lean ====
section
/-! DEFINITION. The meanings of the Frame Reassembler's operations (41_reassembler.md). -/

namespace Sys2Proof.Machine

/-- `RSM.REJECT` (41_reassembler.md R131): the `checksum` field is not examined. -/
def execRsmReject (h : FrameHeader) (s : State) : Result :=
  whenSelected (s.phase == .awaitHeader && h.magicGood && !lengthInBounds s.cfg.maxFrameSize h.length)
    (.next (s.recover (.malformedHeader .lengthOutOfBounds)))

/-- `RSM.START` (41_reassembler.md R132): all four data registers are written; the buffer is logically emptied
(20_memory.md R54). -/
def execRsmStart (h : FrameHeader) (s : State) : Result :=
  whenSelected (s.phase == .awaitHeader && h.magicGood && lengthInBounds s.cfg.maxFrameSize h.length)
    (.next { s with
      hdrMagic := h.magic
      hdrLength := h.length
      hdrChecksum := h.checksum
      received := 0#31
      buf := []
      phase := .reassembling })

/-- `RSM.APPEND` (41_reassembler.md R134): stores the clamped chunk at `received` and advances it. -/
def execRsmAppend (b : Bytes) (s : State) : Result :=
  whenSelected (s.phase == .reassembling && s.incomplete)
    (match memWrite s s.received.toNat (s.chunk b) with
    | none => .fault .bufferOverrun
    | some t => .next { t with received := BitVec.ofNat 31 (s.received.toNat + (s.chunk b).length) })

/-- `RSM.ABORT` (41_reassembler.md R135): `received` and `hdr_length` are reported as they stand at the abort. -/
def execRsmAbort (s : State) : Result :=
  whenSelected (s.phase == .reassembling && s.incomplete)
    (.next (s.recover (.reassemblyFailure .receiveError s.received.toNat s.lengthVal)))

/-- `RSM.TIMEOUT` (41_reassembler.md R137). -/
def execRsmTimeout (s : State) : Result :=
  whenSelected (s.phase == .reassembling && s.incomplete && s.cfg.receiveTimeout.isSome)
    (.next (s.recover (.reassemblyFailure .timeout s.received.toNat s.lengthVal)))

/-- `RSM.COMPLETE` (41_reassembler.md R136). -/
def execRsmComplete (s : State) : Result :=
  whenSelected (s.phase == .reassembling && s.complete) (.next { s with phase := .verifying })

end Sys2Proof.Machine
end

