-- ==== Sys2Proof/Machine/Sink.lean ====
section
/-! DEFINITION. The meaning of the `SINK` agent's one operation (44_collaborators.md R217). -/

namespace Sys2Proof.Machine

/-- `SINK.TAKE` (44_collaborators.md R217): the payload passes to the Sink, whose takes the model records (log 7). The
engine's phase is irrelevant. -/
def execSinkTake (s : State) : Result :=
  match s.pending with
  | none => .refused .notSelected
  | some p => .next { s with pending := none, taken := s.taken ++ [p] }

end Sys2Proof.Machine
end

