-- ==== Sys2Proof/Machine/Verifier.lean ====
section
/-! DEFINITION. The meanings of the Integrity Verifier's operations (42_verifier.md R164, R165). The whole check happens
inside the one transition (R167). -/

namespace Sys2Proof.Machine

/-- `VER.PASS` (42_verifier.md R164): nothing but `phase` changes. -/
def execVerPass (s : State) : Result :=
  whenSelected (s.phase == .verifying)
    (match s.payload with
    | none => .fault .unspecifiedRead
    | some p => whenSelected (verify p s.hdrChecksum) (.next { s with phase := .dispatching }))

/-- `VER.FAIL` (42_verifier.md R165). -/
def execVerFail (s : State) : Result :=
  whenSelected (s.phase == .verifying)
    (match s.payload with
    | none => .fault .unspecifiedRead
    | some p =>
      whenSelected (!verify p s.hdrChecksum)
        (.next (s.recover (.checksumMismatch s.hdrChecksum.toInt (checksumOf p) s.lengthVal))))

end Sys2Proof.Machine
end

