-- ==== Sys2Proof/Machine/Dispatch.lean ====
section
/-! DEFINITION. One arm per operation of spec/opcode_table.json. -/

namespace Sys2Proof.Machine

def exec (i : Instr) (s : State) : Host.Outcome State Fault Refusal :=
  match i with
  | .engReset _ => Sys2Proof.Machine.execEngReset s
  | .engHalted e => Sys2Proof.Machine.execEngHalted e s
  | .engFatal _ => Sys2Proof.Machine.execEngFatal s
  | .engShutdown _ => Sys2Proof.Machine.execEngShutdown s
  | .hdrShort b => Sys2Proof.Machine.execHdrShort b s
  | .hdrBadmagic h => Sys2Proof.Machine.execHdrBadmagic h s
  | .rsmReject h => Sys2Proof.Machine.execRsmReject h s
  | .rsmStart h => Sys2Proof.Machine.execRsmStart h s
  | .hdrReaderr => Sys2Proof.Machine.execHdrReaderr s
  | .hdrIdle => Sys2Proof.Machine.execHdrIdle s
  | .rsmAppend b => Sys2Proof.Machine.execRsmAppend b s
  | .rsmAbort => Sys2Proof.Machine.execRsmAbort s
  | .rsmTimeout => Sys2Proof.Machine.execRsmTimeout s
  | .rsmComplete => Sys2Proof.Machine.execRsmComplete s
  | .verPass => Sys2Proof.Machine.execVerPass s
  | .verFail => Sys2Proof.Machine.execVerFail s
  | .engDispatch => Sys2Proof.Machine.execEngDispatch s
  | .sinkTake _ => Sys2Proof.Machine.execSinkTake s

end Sys2Proof.Machine
end

