-- ==== Sys2Proof/Machine/Fetch.lean ====
section
/-! DEFINITION. Where the next operation's word comes from: the phase and the next event of the environment's trace
(30_encoding.md R80, R95), and how a word is placed there. -/

namespace Sys2Proof.Machine

/-- Is the head of the trace taken now? An urgent item (`!`) at once, a plain one only when no internal operation is
enabled: "between two items the engine performs every enabled `TAU` operation" (30_encoding.md R95). -/
def State.headTaken (s : State) : Bool :=
  match s.inputs with
  | [] => false
  | i :: _ => i.urgent || !s.tauEnabled

/-- The event of the next transition: the head of the trace when it is taken now, else an internal step. -/
def State.nextEvent (s : State) : Event :=
  match s.inputs with
  | [] => .tau
  | i :: _ => if i.urgent || !s.tauEnabled then i.event else .tau

/-- The word of the next transition. -/
def State.fetchWord (s : State) : Bytes := wordOf s.phase s.nextEvent

/-- The state with the trace item of the next transition used up, if the transition takes one. -/
def State.consume (s : State) : State :=
  if s.headTaken then { s with inputs := s.inputs.tail } else s

/-- Does the engine, after this operation, make the request its new state asks for (43_engine_loop.md R181)? Every
operation that ends a receive, or that enters phase 0 without one, does. `SINK.TAKE` is no step of the engine,
`ENG.HALTED` makes none, and the request after `HDR.IDLE` is the one before it, still outstanding: 40_header_codec.md R115
has "no state change, no event" and calls its repetitions not observable. DESIGN CHOICE for `HDR.IDLE`; log 13. -/
def makesRequest : Instr → Bool
  | .hdrIdle => false
  | .sinkTake _ => false
  | .engHalted _ => false
  | .engReset _ => true
  | .engFatal _ => true
  | .engShutdown _ => true
  | .hdrShort _ => true
  | .hdrBadmagic _ => true
  | .rsmReject _ => true
  | .rsmStart _ => true
  | .hdrReaderr => true
  | .rsmAppend _ => true
  | .rsmAbort => true
  | .rsmTimeout => true
  | .rsmComplete => true
  | .verPass => true
  | .verFail => true
  | .engDispatch => true

/-- The request that the new state asks for, if any, is made: it joins the sequence of requests (00_scope.md R14 (a)). -/
def State.noteRequest (i : Instr) (t : State) : State :=
  { t with requests := t.requests ++ if makesRequest i then t.request.toList else [] }

/-- An operation's outcome, with its request made. -/
def noted (i : Instr) (r : Result) : Result :=
  match r with
  | .next t => .next (t.noteRequest i)
  | .fault q => .fault q
  | .refused q => .refused q

/-- What a step answers when the table of R81 has no operation for the pair. `TAU` and `TAKE` are not enabled: there is "no
step" (30_encoding.md R81; 93 U14) and nothing changes (log 6). The rest are breaches of the environment's contract
(60_exceptions.md R245). -/
def unselected : DecodeError → Result
  | .nothingToDo => .refused .noStep
  | .nothingPending => .refused .noStep
  | .answerWithoutRequest => .refused .answerWithoutRequest
  | .timeoutNotConfigured => .refused .timeoutNotConfigured
  | .noSelector => .refused .undecodable
  | .reservedSelector => .refused .undecodable
  | .reservedPhase => .refused .undecodable
  | .surplusBytes => .refused .undecodable

/-- The data registers under which phase `p` selects an operation on `e`, changed only where they do not yet do so. -/
def State.placeRegisters (s : State) (p : Phase) (e : Event) : State :=
  match p with
  | .reassembling =>
    if e.isAnswer then
      if s.incomplete then s else { s with received := 0#31, hdrLength := 1#32 }
    else if e == .tau && !s.complete then { s with received := 0#31, hdrLength := 0#32 }
    else s
  | .verifying =>
    if e == .tau && !s.checksumOk then { s with received := 0#31, hdrLength := 0#32, hdrChecksum := 0#32 } else s
  | .dispatching =>
    if e == .tau && s.payload.isNone then { s with received := 0#31, hdrLength := 0#32 } else s
  | _ => s

/-- The receive timeout an `RX_TIMEOUT` needs. -/
def State.placeTimeout (s : State) (e : Event) : State :=
  if e == .rxTimeout && s.cfg.receiveTimeout.isNone then { s with cfg := { s.cfg with receiveTimeout := some 0 } } else s

/-- The pending frame a `TAKE` needs. -/
def State.placePending (s : State) (e : Event) : State :=
  if e == .take && s.pending.isNone then { s with pending := some [] } else s

/-- Places a word as the next one: the phase register, the event as an urgent item at the head of the trace, and what
the word's row of R81 needs of the state. A word that spells no phase and event is not placed. -/
def placeWord (w : Bytes) (s : State) : State :=
  match decodeSelector w with
  | .error _ => s
  | .ok (p, e) =>
    ((({ s with phase := p, inputs := ⟨true, e⟩ :: s.inputs }).placeRegisters p e).placeTimeout e).placePending e

end Sys2Proof.Machine
end

