-- ==== Sys2Proof/Machine/Step.lean ====
section
/-! DEFINITION. The step: fetch the word of the phase and the next event, decode it under the state's conditions, run
the operation, make the request its new state asks for (00_scope.md R9; 30_encoding.md R81; 43_engine_loop.md R181). -/

namespace Sys2Proof.Machine

/-- One transition. -/
def step (s : State) : Host.Outcome State Fault Refusal :=
  match decode s.conditions s.fetchWord with
  | .ok i => noted i (exec i s.consume)
  | .error r => unselected r

/-- The state whose next step fetches a word of the opcode table (log 4). -/
def State.withFetchWord (s : State) (nbits w : Nat) : State := placeWord (tableBytes nbits w) s

end Sys2Proof.Machine
end

