-- ==== Sys2Proof/Machine/Trace.lean ====
section
/-! DEFINITION. The trace notation (30_encoding.md R95) and the sender's procedure, the pseudo-instruction `FRAME`
(R96), as lists of inputs. -/

namespace Sys2Proof.Machine

/-- `HDR m, l, c` (30_encoding.md R95): the source answers with the 12-byte encoding of the three integers. -/
def hdrItem (m l c : Int) : Input :=
  ⟨false, .rxData (encodeHeader ⟨BitVec.ofInt 32 m, BitVec.ofInt 32 l, BitVec.ofInt 32 c⟩)⟩

/-- `DATA h` (30_encoding.md R95). -/
def dataItem (b : Bytes) : Input := ⟨false, .rxData b⟩

/-- `ERR` (30_encoding.md R95). -/
def errItem : Input := ⟨false, .rxError⟩

/-- `TMO` (30_encoding.md R95). -/
def tmoItem : Input := ⟨false, .rxTimeout⟩

/-- `FATAL` (30_encoding.md R95). -/
def fatalItem : Input := ⟨false, .rxFatal⟩

/-- `SHUTDOWN` (30_encoding.md R95). -/
def shutdownItem : Input := ⟨false, .shutdown⟩

/-- `RESET` (30_encoding.md R95). -/
def resetItem : Input := ⟨false, .reset⟩

/-- `TAKE` (30_encoding.md R95). -/
def takeItem : Input := ⟨false, .take⟩

/-- The `!` of the notation (30_encoding.md R95): "before any pending `TAU` operation". -/
def bang (i : Input) : Input := { i with urgent := true }

/-- `P` cut into chunks of the given lengths (30_encoding.md R96). -/
def cut (p : Bytes) : List Nat → List Bytes
  | [] => []
  | n :: ns => p.take n :: cut (p.drop n) ns

/-- `FRAME P / n1, ..., nk` (30_encoding.md R96): the header, then the chunks. -/
def frameTrace (p : Bytes) (sizes : List Nat) : List Input :=
  hdrItem Config.magic p.length (checksumOf p) :: (cut p sizes).map dataItem

/-- The requests that a frame's chunks answer, one before each: `min(MAX_CHUNK_SIZE, remaining)` (41_reassembler.md R133;
95 P4). -/
def frameRequests : Nat → List Nat → List Nat
  | _, [] => []
  | remaining, n :: ns => min Config.maxChunkSize remaining :: frameRequests (remaining - n) ns

/-- The sizes of the split with the fewest chunks for `len` bytes, each of 32767 bytes but the last; `fuel` bounds the
number of chunks. -/
def fewestSizes : Nat → Nat → List Nat
  | 0, _ => []
  | fuel + 1, len =>
    if len = 0 then []
    else if len ≤ Config.maxChunkSize then [len]
    else Config.maxChunkSize :: fewestSizes fuel (len - Config.maxChunkSize)

/-- `FRAME P` alone (30_encoding.md R96): the split with the fewest chunks. -/
def frameTraceFewest (p : Bytes) : List Input := frameTrace p (fewestSizes p.length p.length)

end Sys2Proof.Machine
end

