-- ==== Sys2Proof/Safety.lean ====
section
/-! DEFINITION. The terms claims are stated in: the invariant of 10_state.md R35, the observation of 00_scope.md R14,
what the environment's contract asks (60_exceptions.md R245), the phase edges of 43_engine_loop.md R184, the table of
30_encoding.md R81 as a relation, and what it means for two states to look alike. -/

namespace Sys2Proof.Machine

/-- A frame attempt is in progress: phases 1, 2, 3 (10_state.md R27). -/
def State.live (s : State) : Bool :=
  match s.phase with
  | .reassembling => true
  | .verifying => true
  | .dispatching => true
  | _ => false

/-- The invariant of 10_state.md R35: items 2 to 6, and of item 7 that exactly the bytes `[0, received)` are written, with
the buffer's canonical form, the mailbox's size (R20) and the last entry of the request record (log 13). Item 1 is the type
of `phase`. What those bytes are (the rest of item 7) and where the mailbox's payload comes from (item 8) speak of the past
of a state; they are stated of the steps. -/
structure State.Inv (s : State) : Prop where
  /-- Item 2. -/
  halted_iff : s.phase = .terminal ↔ s.termCause ≠ .none
  /-- Item 3. -/
  idle_received : s.live = false → s.received = 0#31
  /-- Item 4, the sentinel. -/
  magic_good : s.live = true → s.hdrMagic.toInt = Config.magic
  /-- Item 4, the count. -/
  received_le : s.live = true → (s.received.toNat : Int) ≤ s.lengthVal
  /-- Item 4, the bound. -/
  length_le : s.live = true → s.lengthVal ≤ s.cfg.maxFrameSize.toNat
  /-- Item 5. -/
  full : s.phase = .verifying ∨ s.phase = .dispatching → (s.received.toNat : Int) = s.lengthVal
  /-- Item 6. -/
  verified : s.phase = .dispatching → s.checksumOk = true
  /-- Item 7, its first half: exactly the bytes `[0, received)` have been written. -/
  written : s.live = true → s.buf.map Prod.fst = List.range s.received.toNat
  /-- The buffer's canonical form. -/
  buf_wf : s.buf.wf = true
  /-- The outstanding request is the last one made (43_engine_loop.md R181; log 13). -/
  last_request : ∀ m, s.request = some m → s.requests.getLast? = some m
  /-- The mailbox's size (R20). -/
  pending_le : ∀ p, s.pending = some p → p.length ≤ s.cfg.maxFrameSize.toNat

/-- The payloads of the Sink invocations among the events (60_exceptions.md R237). -/
def dispatched : List OutEvent → List Bytes
  | [] => []
  | .frame p :: es => p :: dispatched es
  | _ :: es => dispatched es

/-- What the Sink has taken, and what waits for it, is a subsequence of what was dispatched, in the same order
(44_collaborators.md R218). -/
def State.SinkOrder (s : State) : Prop := (s.taken ++ s.pending.toList).Sublist (dispatched s.events)

/-- What the environment sees (00_scope.md R14): the requests made so far and whether one is outstanding (a), the events
(b), the status outputs (c), what the Sink took (d). An `HDR.IDLE` adds no request (40_header_codec.md R115; log 13). -/
structure Observation where
  requests : List Nat
  request : Option Nat
  events : List OutEvent
  phase : Phase
  termCause : TermCause
  taken : List Bytes
deriving DecidableEq, Repr

/-- The observation of a state. -/
def State.observation (s : State) : Observation :=
  ⟨s.requests, s.request, s.events, s.phase, s.termCause, s.taken⟩

/-- Two states differ only in what no rule may read: the header registers, `received` and the buffer when they are not
live, and the model's counter of free values (10_state.md R27). -/
structure LiveAgree (s t : State) : Prop where
  phase : s.phase = t.phase
  termCause : s.termCause = t.termCause
  pending : s.pending = t.pending
  events : s.events = t.events
  cfg : s.cfg = t.cfg
  inputs : s.inputs = t.inputs
  taken : s.taken = t.taken
  requests : s.requests = t.requests
  attempt : s.live = true → s.hdrMagic = t.hdrMagic ∧ s.hdrLength = t.hdrLength ∧
    s.hdrChecksum = t.hdrChecksum ∧ s.received = t.received ∧ s.buf = t.buf

/-- The state without the Sink's side of the mailbox. -/
def State.forgetSink (s : State) : State := { s with pending := none, taken := [] }

/-- Two outcomes are of one kind, with related states or equal reasons. -/
def OutcomeRel (R : State → State → Prop) (a b : Result) : Prop :=
  match a, b with
  | .next s, .next t => R s t
  | .fault q, .fault r => q = r
  | .refused q, .refused r => q = r
  | _, _ => False

/-- The next event keeps the environment's contract (60_exceptions.md R245): an answer meets a request, and a timeout is
configured. An answer that meets the halted block counts as kept, because 43_engine_loop.md R196 absorbs it, although R245
names every answer without a request (DEDUCED; log 8). -/
def State.contractKept (s : State) : Bool :=
  s.phase == .terminal || !s.nextEvent.isAnswer ||
    (s.request.isSome && (s.nextEvent != .rxTimeout || s.cfg.receiveTimeout.isSome))

/-- The bytes received so far in the frame attempt in progress, `buf[0 .. received)`. -/
def State.collected (s : State) : Option Bytes := memRead s 0 s.received.toNat

/-- The bytes an event adds to the buffer of a frame attempt: the clamped chunk of an answer, nothing otherwise
(41_reassembler.md R134). -/
def State.added (s : State) : Event → Bytes
  | .rxData b => s.chunk b
  | _ => []

/-- The next event is enabled (30_encoding.md R80, last column; 93 U14): `TAU` when an internal operation is enabled, or
in the halted block, which absorbs it (43_engine_loop.md R196; log 8); `TAKE` when a frame is pending; the rest always. -/
def State.eventEnabled (s : State) : Bool :=
  match s.nextEvent with
  | .tau => s.tauEnabled || s.phase == .terminal
  | .take => s.pending.isSome
  | _ => true

/-- The edges of the transition list, 43_engine_loop.md R184, with the transitions that leave the phase as it is. -/
def phaseEdge (p q : Phase) : Prop :=
  p = q ∨ (p = .awaitHeader ∧ q = .reassembling) ∨ (p = .reassembling ∧ q = .awaitHeader) ∨
    (p = .reassembling ∧ q = .verifying) ∨ (p = .verifying ∧ q = .awaitHeader) ∨
    (p = .verifying ∧ q = .dispatching) ∨ (p = .dispatching ∧ q = .awaitHeader) ∨ q = .terminal

/-- The table of 30_encoding.md R81, row by row: under the conditions `k` the pair (`p`, `e`) selects `i`. -/
def selectionTable (k : Conditions) (p : Phase) (e : Event) (i : Instr) : Prop :=
  (e = .reset ∧ i = .engReset p) ∨
  (p = .terminal ∧ e ≠ .reset ∧ e ≠ .take ∧ i = .engHalted e) ∨
  (p ≠ .terminal ∧ e = .rxFatal ∧ i = .engFatal p) ∨
  (p ≠ .terminal ∧ e = .shutdown ∧ i = .engShutdown p) ∨
  (∃ b, p = .awaitHeader ∧ e = .rxData b ∧ b.length < 12 ∧ i = .hdrShort b) ∨
  (∃ b, p = .awaitHeader ∧ e = .rxData b ∧ 12 ≤ b.length ∧ s32be b 0 ≠ -114514 ∧
    i = .hdrBadmagic (headerAt b)) ∨
  (∃ b, p = .awaitHeader ∧ e = .rxData b ∧ 12 ≤ b.length ∧ s32be b 0 = -114514 ∧
    (s32be b 4 < 0 ∨ k.maxFrameSize.toNat < s32be b 4) ∧ i = .rsmReject (headerAt b)) ∨
  (∃ b, p = .awaitHeader ∧ e = .rxData b ∧ 12 ≤ b.length ∧ s32be b 0 = -114514 ∧
    0 ≤ s32be b 4 ∧ s32be b 4 ≤ k.maxFrameSize.toNat ∧ i = .rsmStart (headerAt b)) ∨
  (p = .awaitHeader ∧ e = .rxError ∧ i = .hdrReaderr) ∨
  (p = .awaitHeader ∧ e = .rxTimeout ∧ k.timeoutConfigured = true ∧ i = .hdrIdle) ∨
  (∃ b, p = .reassembling ∧ e = .rxData b ∧ k.incomplete = true ∧ i = .rsmAppend b) ∨
  (p = .reassembling ∧ e = .rxError ∧ k.incomplete = true ∧ i = .rsmAbort) ∨
  (p = .reassembling ∧ e = .rxTimeout ∧ k.incomplete = true ∧ k.timeoutConfigured = true ∧ i = .rsmTimeout) ∨
  (p = .reassembling ∧ e = .tau ∧ k.complete = true ∧ i = .rsmComplete) ∨
  (p = .verifying ∧ e = .tau ∧ k.checksumOk = true ∧ i = .verPass) ∨
  (p = .verifying ∧ e = .tau ∧ k.checksumOk = false ∧ i = .verFail) ∨
  (p = .dispatching ∧ e = .tau ∧ i = .engDispatch) ∨
  (e = .take ∧ k.pendingFull = true ∧ i = .sinkTake p)

/-- The events that can occur under the conditions `k` in the phase `p` (30_encoding.md R80, last column): `TAU` when an
internal operation is enabled, an answer while a request is outstanding, a timeout when one is configured, a `TAKE` when
a frame is pending; the rest in any phase. -/
def eventCanOccur (k : Conditions) (p : Phase) (e : Event) : Prop :=
  (e = .tau → (p = .reassembling ∧ k.complete = true) ∨ p = .verifying ∨ p = .dispatching) ∧
  (e.isAnswer = true → p = .awaitHeader ∨ (p = .reassembling ∧ k.incomplete = true)) ∧
  (e = .rxTimeout → k.timeoutConfigured = true) ∧
  (e = .take → k.pendingFull = true)

/-- `s` with the parts that are dead outside a frame attempt taken from `t`: the header registers, the buffer and the
model's counter (10_state.md R27). A statement `t = s'.deadFrom t` says nothing of those parts of `t`. -/
def State.deadFrom (s t : State) : State :=
  { s with
    hdrMagic := t.hdrMagic
    hdrLength := t.hdrLength
    hdrChecksum := t.hdrChecksum
    buf := t.buf
    freeCount := t.freeCount }

/-- `n` steps, stopping at the first fault or refusal. -/
def runSteps : Nat → State → Result
  | 0, s => .next s
  | n + 1, s =>
    match step s with
    | .next t => runSteps n t
    | .fault r => .fault r
    | .refused r => .refused r

/-- One `RSM.APPEND` after another. -/
def appendAll : List Bytes → State → Result
  | [], s => .next s
  | b :: bs, s =>
    match exec (.rsmAppend b) s with
    | .next t => appendAll bs t
    | .fault r => .fault r
    | .refused r => .refused r

end Sys2Proof.Machine
end

