-- ==== Sys2Proof/Certificates/Slice0/Obligations.lean ====
section
/-! DEFINITION. The statements for the provers. Where a statement about an operation gives the whole next state, every
field it does not name is unchanged. `wordOf` is the byte layout of a word that log 4 chooses. -/

open Sys2Proof Sys2Proof.Machine

/-! ## The step, the trace and the codec -/

/-- The step runs the decoded operation on the state whose trace item is used up, and then the engine makes the request its
new state asks for: it joins the sequence of requests, and nothing else changes. The trace, the layout of a word and the
record of requests are THE MODEL'S CHOICE (logs 3, 4 and 13). -/
def Obligations.StepRunsTheDecodedOperation : Prop :=
  ∀ (s : State) (i : Instr), decode s.conditions s.fetchWord = .ok i →
    step s = noted i (exec i s.consume) ∧
      s.consume = { s with inputs := if s.headTaken then s.inputs.tail else s.inputs } ∧
      (∀ t, noted i (.next t) = .next { t with
        requests := t.requests ++ if makesRequest i then t.request.toList else [] }) ∧
      (∀ q, noted i (.fault q) = .fault q) ∧ (∀ q, noted i (.refused q) = .refused q)

/-- The next word is the selector of the phase and the next event: with no item left an internal step; an urgent item at
once; a plain item only when no internal operation is enabled (30_encoding.md section 5). The trace is THE MODEL'S CHOICE
(log 3). -/
def Obligations.FetchFollowsTheTrace : Prop :=
  ∀ s : State, s.fetchWord = wordOf s.phase s.nextEvent ∧
    (s.inputs = [] → s.nextEvent = .tau ∧ s.consume = s) ∧
    (∀ u e rest, s.inputs = ⟨u, e⟩ :: rest →
      (u = true ∨ s.tauEnabled = false → s.nextEvent = e ∧ s.consume = { s with inputs := rest }) ∧
      (u = false ∧ s.tauEnabled = true → s.nextEvent = .tau ∧ s.consume = s))

/-- A few words written out from the encoding, under explicit conditions, decode to the operations they stand for. The
selector and the header fields are the spec's; that a word is a selector byte with bits 7 and 6 zero, followed by the
datagram, is THE MODEL'S CHOICE (log 4). -/
def Obligations.KnownWordsDecode : Prop :=
  decode .frameComplete
      [0x01#8, 0xFF#8, 0xFE#8, 0x40#8, 0xAE#8, 0x00#8, 0x00#8, 0x00#8, 0x0A#8, 0x00#8, 0x00#8, 0x04#8, 0xD2#8] =
    .ok (.rsmStart ⟨0xFFFE40AE#32, 10#32, 1234#32⟩) ∧
  decode .frameComplete
      [0x01#8, 0x00#8, 0x01#8, 0xBF#8, 0x52#8, 0x00#8, 0x00#8, 0x00#8, 0x0A#8, 0x00#8, 0x00#8, 0x04#8, 0xD2#8] =
    .ok (.hdrBadmagic ⟨114514#32, 10#32, 1234#32⟩) ∧
  decode .frameComplete [0x02#8] = .ok .hdrReaderr ∧
  decode { Conditions.frameComplete with incomplete := true, complete := false } [0x09#8, 0xAA#8, 0xBB#8] =
    .ok (.rsmAppend [0xAA#8, 0xBB#8]) ∧
  decode .frameComplete [0x08#8] = .ok .rsmComplete ∧
  decode .frameComplete [0x10#8] = .ok .verPass ∧
  decode { Conditions.frameComplete with checksumOk := false } [0x10#8] = .ok .verFail ∧
  decode .frameComplete [0x18#8] = .ok .engDispatch ∧
  decode .frameComplete [0x0C#8] = .ok (.engFatal .reassembling) ∧
  decode .frameComplete [0x06#8] = .ok (.engReset .awaitHeader) ∧
  decode { Conditions.frameComplete with pendingFull := true } [0x27#8] = .ok (.sinkTake .terminal) ∧
  decode .frameComplete [0x28#8] = .error .reservedPhase

/-- Decode and encode agree: every well-formed operation, under conditions that admit it, is what its word (log 4) decodes
to. -/
def Obligations.DecodeOfEncode : Prop :=
  ∀ (k : Conditions) (i : Instr), i.wf = true → i.admittedBy k = true → decode k (encode i) = .ok i

/-- Encode and decode agree: a word that decodes is the word of the operation it decodes to, or is a phase-0 datagram of
12 bytes or more of which the word has the first 12 (30_encoding.md section 2; log 4). -/
def Obligations.EncodeOfDecode : Prop :=
  ∀ (k : Conditions) (w : Bytes) (i : Instr), decode k w = .ok i →
    i.wf = true ∧ i.admittedBy k = true ∧
      (encode i = w ∨ ∃ b : Bytes, 12 ≤ b.length ∧ w = wordOf .awaitHeader (.rxData b) ∧
        encode i = wordOf .awaitHeader (.rxData (b.take 12)))

/-- The decoder selects exactly what a row of the table of 30_encoding.md section 1 selects (a timeout in phase 0 only when
one is configured, 40_header_codec.md R115); so the rows are mutually exclusive (`select` is a function), and for the
events that can occur they are exhaustive. -/
def Obligations.SelectionIsTheTable : Prop :=
  (∀ (k : Conditions) (p : Phase) (e : Event) (i : Instr), select k p e = .ok i ↔ selectionTable k p e i) ∧
  (∀ (k : Conditions) (p : Phase) (e : Event), eventCanOccur k p e → ∃ i, select k p e = .ok i)

/-! ## The operations: selection and effect -/

/-- `HDR.SHORT`, 40_header_codec.md R112. -/
def Obligations.HdrShortResult : Prop :=
  ∀ (s : State) (b : Bytes), s.phase = .awaitHeader → b.length < 12 →
    decode s.conditions (wordOf s.phase (.rxData b)) = .ok (.hdrShort b) ∧
    exec (.hdrShort b) s =
      .next { s with received := 0#31, events := s.events ++ [.malformedHeader .shortRead] }

/-- `HDR.BADMAGIC`, 40_header_codec.md R113: whatever bytes 4 to 11 and any beyond are. -/
def Obligations.HdrBadmagicResult : Prop :=
  ∀ (s : State) (b : Bytes), s.phase = .awaitHeader → 12 ≤ b.length → s32be b 0 ≠ -114514 →
    decode s.conditions (wordOf s.phase (.rxData b)) = .ok (.hdrBadmagic (headerAt b)) ∧
    exec (.hdrBadmagic (headerAt b)) s =
      .next { s with received := 0#31, events := s.events ++ [.malformedHeader .badMagic] }

/-- `HDR.READERR`, 40_header_codec.md R114. -/
def Obligations.HdrReaderrResult : Prop :=
  ∀ s : State, s.phase = .awaitHeader →
    decode s.conditions (wordOf s.phase .rxError) = .ok .hdrReaderr ∧
    exec .hdrReaderr s =
      .next { s with received := 0#31, events := s.events ++ [.malformedHeader .readError] }

/-- `HDR.IDLE`, 40_header_codec.md R115: no state change, no event. -/
def Obligations.HdrIdleResult : Prop :=
  ∀ s : State, s.phase = .awaitHeader → s.cfg.receiveTimeout.isSome = true →
    decode s.conditions (wordOf s.phase .rxTimeout) = .ok .hdrIdle ∧ exec .hdrIdle s = .next s

/-- `RSM.REJECT`, 41_reassembler.md R131: a negative length and one over `MAX_FRAME_SIZE` alike; no register but the
count, which stays 0, is written. -/
def Obligations.RsmRejectResult : Prop :=
  ∀ (s : State) (b : Bytes), s.phase = .awaitHeader → 12 ≤ b.length → s32be b 0 = -114514 →
    s32be b 4 < 0 ∨ s.cfg.maxFrameSize.toNat < s32be b 4 →
    decode s.conditions (wordOf s.phase (.rxData b)) = .ok (.rsmReject (headerAt b)) ∧
    exec (.rsmReject (headerAt b)) s =
      .next { s with received := 0#31, events := s.events ++ [.malformedHeader .lengthOutOfBounds] }

/-- `RSM.START`, 41_reassembler.md R132: the four data registers, the phase, and nothing else but the buffer, whose
bytes become unspecified (20_memory.md R54). -/
def Obligations.RsmStartResult : Prop :=
  ∀ (s : State) (b : Bytes), s.phase = .awaitHeader → 12 ≤ b.length → s32be b 0 = -114514 →
    0 ≤ s32be b 4 → s32be b 4 ≤ s.cfg.maxFrameSize.toNat →
    decode s.conditions (wordOf s.phase (.rxData b)) = .ok (.rsmStart (headerAt b)) ∧
    ∃ t, exec (.rsmStart (headerAt b)) s = .next t ∧
      t.hdrMagic.toInt = -114514 ∧ t.hdrLength.toInt = s32be b 4 ∧ t.hdrChecksum.toInt = s32be b 8 ∧
      t = { s with
        phase := .reassembling
        received := 0#31
        hdrMagic := t.hdrMagic
        hdrLength := t.hdrLength
        hdrChecksum := t.hdrChecksum
        buf := t.buf }

/-- `RSM.APPEND`, 41_reassembler.md R134: the clamped chunk is stored at `received`, `received` advances by its length,
every byte outside `[received, received + n)` and everything else is unchanged. The premise on `MAX_FRAME_SIZE` is item 4
of the invariant (`StepKeepsTheInvariant`). -/
def Obligations.RsmAppendResult : Prop :=
  ∀ (s : State) (b : Bytes), s.phase = .reassembling → (s.received.toNat : Int) < s.hdrLength.toInt →
    s.hdrLength.toInt ≤ s.cfg.maxFrameSize.toNat →
    decode s.conditions (wordOf s.phase (.rxData b)) = .ok (.rsmAppend b) ∧
    ∃ t n, exec (.rsmAppend b) s = .next t ∧
      n = min b.length (min 32767 (s.hdrLength.toInt - s.received.toNat).toNat) ∧
      t = { s with received := t.received, buf := t.buf } ∧
      t.received.toNat = s.received.toNat + n ∧
      (∀ i, i < n → t.buf.readByte (s.received.toNat + i) = b[i]?) ∧
      (∀ a, a < s.received.toNat ∨ s.received.toNat + n ≤ a → t.buf.readByte a = s.buf.readByte a)

/-- `RSM.ABORT`, 41_reassembler.md R135: the partial data is discarded, the header registers and the buffer are dead. -/
def Obligations.RsmAbortResult : Prop :=
  ∀ s : State, s.phase = .reassembling → (s.received.toNat : Int) < s.hdrLength.toInt →
    decode s.conditions (wordOf s.phase .rxError) = .ok .rsmAbort ∧
    ∃ t, exec .rsmAbort s = .next t ∧
      t = State.deadFrom { s with
        phase := .awaitHeader
        received := 0#31
        events := s.events ++ [.reassemblyFailure .receiveError s.received.toNat s.hdrLength.toInt] } t

/-- `RSM.TIMEOUT`, 41_reassembler.md R137. -/
def Obligations.RsmTimeoutResult : Prop :=
  ∀ s : State, s.phase = .reassembling → (s.received.toNat : Int) < s.hdrLength.toInt →
    s.cfg.receiveTimeout.isSome = true →
    decode s.conditions (wordOf s.phase .rxTimeout) = .ok .rsmTimeout ∧
    ∃ t, exec .rsmTimeout s = .next t ∧
      t = State.deadFrom { s with
        phase := .awaitHeader
        received := 0#31
        events := s.events ++ [.reassemblyFailure .timeout s.received.toNat s.hdrLength.toInt] } t

/-- `RSM.COMPLETE`, 41_reassembler.md R136: only the phase changes, and no request is outstanding any more. -/
def Obligations.RsmCompleteResult : Prop :=
  ∀ s : State, s.phase = .reassembling → (s.received.toNat : Int) = s.hdrLength.toInt →
    decode s.conditions (wordOf s.phase .tau) = .ok .rsmComplete ∧
    exec .rsmComplete s = .next { s with phase := .verifying } ∧ s.request = none

/-- `VER.PASS`, 42_verifier.md R164: nothing but the phase changes. -/
def Obligations.VerPassResult : Prop :=
  ∀ (s : State) (p : Bytes), s.phase = .verifying → s.payload = some p →
    (((crc32 p).toNat / 100 : Nat) : Int) = s.hdrChecksum.toInt →
    decode s.conditions (wordOf s.phase .tau) = .ok .verPass ∧
    exec .verPass s = .next { s with phase := .dispatching }

/-- `VER.FAIL`, 42_verifier.md R165: the payload is discarded and the mailbox is untouched. -/
def Obligations.VerFailResult : Prop :=
  ∀ (s : State) (p : Bytes), s.phase = .verifying → s.payload = some p →
    (((crc32 p).toNat / 100 : Nat) : Int) ≠ s.hdrChecksum.toInt →
    decode s.conditions (wordOf s.phase .tau) = .ok .verFail ∧
    ∃ t, exec .verFail s = .next t ∧
      t = State.deadFrom { s with
        phase := .awaitHeader
        received := 0#31
        events := s.events ++
          [.checksumMismatch s.hdrChecksum.toInt ((crc32 p).toNat / 100) s.hdrLength.toInt] } t

/-- `ENG.DISPATCH`, 43_engine_loop.md R192: exactly one event, the mailbox overwritten whatever it held. -/
def Obligations.EngDispatchResult : Prop :=
  ∀ (s : State) (p : Bytes), s.phase = .dispatching → s.payload = some p →
    decode s.conditions (wordOf s.phase .tau) = .ok .engDispatch ∧
    ∃ t, exec .engDispatch s = .next t ∧
      t = State.deadFrom { s with
        phase := .awaitHeader
        received := 0#31
        pending := some p
        events := s.events ++ [.frame p] } t

/-- `ENG.FATAL`, 43_engine_loop.md R194: from every phase but the terminal one; the mailbox is left as it is. -/
def Obligations.EngFatalResult : Prop :=
  ∀ s : State, s.phase ≠ .terminal →
    decode s.conditions (wordOf s.phase .rxFatal) = .ok (.engFatal s.phase) ∧
    ∀ p, ∃ t, exec (.engFatal p) s = .next t ∧
      t = State.deadFrom { s with
        phase := .terminal
        termCause := .socketFatal
        received := 0#31
        events := s.events ++ [.socketFatal] } t

/-- `ENG.SHUTDOWN`, 43_engine_loop.md R195. -/
def Obligations.EngShutdownResult : Prop :=
  ∀ s : State, s.phase ≠ .terminal →
    decode s.conditions (wordOf s.phase .shutdown) = .ok (.engShutdown s.phase) ∧
    ∀ p, ∃ t, exec (.engShutdown p) s = .next t ∧
      t = State.deadFrom { s with
        phase := .terminal
        termCause := .shutdown
        received := 0#31
        events := s.events ++ [.shutdown] } t

/-- `ENG.HALTED`, 43_engine_loop.md R196: the terminal phase absorbs every event but `RESET` and `TAKE`. -/
def Obligations.EngHaltedResult : Prop :=
  ∀ (s : State) (e : Event), s.phase = .terminal → e ≠ .reset → e ≠ .take →
    decode s.conditions (wordOf s.phase e) = .ok (.engHalted e) ∧
    exec (.engHalted e) s = .next s ∧ s.request = none

/-- `ENG.RESET`, 70_reset_and_hazards.md R270: from any phase. The statement leaves open what the rule leaves open, the
header registers and the buffer, and says nothing of the model's own records of the Sink's takes and of the requests
(logs 7 and 13). -/
def Obligations.EngResetResult : Prop :=
  ∀ s : State, decode s.conditions (wordOf s.phase .reset) = .ok (.engReset s.phase) ∧
    ∀ p, ∃ t, exec (.engReset p) s = .next t ∧ t.request = some 12 ∧
      t = State.deadFrom { s with
        phase := .awaitHeader
        termCause := .none
        received := 0#31
        pending := none
        events := []
        taken := t.taken
        requests := t.requests } t

/-- `SINK.TAKE` (44_collaborators.md section 2): in any phase; the mailbox is emptied and the engine's state does not
change. That the pending payload, and nothing else, is added to a record of the Sink's takes is THE MODEL'S CHOICE of how
"the Sink now owns p" is shown (log 7). -/
def Obligations.SinkTakeResult : Prop :=
  ∀ (s : State) (p : Bytes), s.pending = some p →
    decode s.conditions (wordOf s.phase .take) = .ok (.sinkTake s.phase) ∧
    ∀ q, exec (.sinkTake q) s = .next { s with pending := none, taken := s.taken ++ [p] }

/-! ## Reset and invariants -/

/-- The values 10_state.md R36, the spec's own decision D20, gives for reset. It gives none for the header registers and
the buffer's contents (logs 1 and 2). That the instance is the reference one is THE MODEL'S CHOICE (log 5). -/
def Obligations.ResetValues : Prop :=
  State.reset.phase = .awaitHeader ∧ State.reset.termCause = .none ∧ State.reset.received = 0#31 ∧
    State.reset.pending = none ∧ State.reset.request = some 12 ∧ State.reset.events = [] ∧
    State.reset.cfg = Params.reference

/-- The invariant of `StepKeepsTheInvariant` holds after reset. -/
def Obligations.InvariantAtReset : Prop := State.reset.Inv

/-- Every step keeps the invariant, from every state that has it: of 10_state.md section 7, items 2 to 6, and of item 7
that exactly the bytes `[0, received)` are written; with the buffer's canonical form, the mailbox's size, and that the
request outstanding is the last one in the model's own record of requests (log 13). The rest of
item 7 is `BufferHoldsTheChunks`, item 8 is `MailboxHoldsVerifiedPayload`. -/
def Obligations.StepKeepsTheInvariant : Prop :=
  ∀ s t : State, s.Inv → step s = .next t → t.Inv

/-- With the invariant no step faults. It answers a next state when `contractKept` and `eventEnabled` hold of the next
event; it answers "no step" when the event is not enabled, a `TAU` with nothing to do or a `TAKE` with nothing pending
(30_encoding.md section 1; 93 U14), which THE MODEL'S CHOICE renders as the refusal `noStep` (log 6); and it refuses by name
when `contractKept` fails. `contractKept` is the contract of 60_exceptions.md section 5, but for an answer that meets the
halted block: section 5 and 93 U14 call it a breach too, and a `TAU` there not enabled, and the model absorbs both, as the
table of 30_encoding.md section 1 does (DEDUCED, log 8). -/
def Obligations.StepCompletesUnderContract : Prop :=
  ∀ s : State, s.Inv →
    (s.contractKept = true → s.eventEnabled = true → ∃ t, step s = .next t) ∧
    (s.contractKept = true → s.eventEnabled = false → step s = .refused .noStep) ∧
    (s.contractKept = false →
      step s = .refused .answerWithoutRequest ∨ step s = .refused .timeoutNotConfigured)

/-- Every step keeps the buffer's canonical form, from every state that has it. -/
def Obligations.StepKeepsBufferForm : Prop :=
  ∀ s t : State, s.buf.wf = true → step s = .next t → t.buf.wf = true

/-- No observable (the sequence of requests, the events, the status outputs and the Sink's takes) ever depends on the dead
header registers, on the dead buffer or on the model's free values: runs of any length from states that differ only there
stay alike and look the same (10_state.md section 3). What is recorded of the requests and of the takes is THE MODEL'S
CHOICE (logs 7 and 13). -/
def Obligations.DeadRegistersNeverObserved : Prop :=
  ∀ (n : Nat) (s t : State), LiveAgree s t →
    OutcomeRel (fun a b => LiveAgree a b ∧ a.observation = b.observation) (runSteps n s) (runSteps n t)

/-- The engine does not depend on the Sink: what waits in the mailbox and what was taken changes nothing else, and a `TAKE`
changes nothing but those two (43_engine_loop.md section 2). -/
def Obligations.SinkDoesNotInfluenceEngine : Prop :=
  ∀ s t : State, s.forgetSink = t.forgetSink →
    (s.nextEvent ≠ .take → OutcomeRel (fun a b => a.forgetSink = b.forgetSink) (step s) (step t)) ∧
    (s.nextEvent = .take → ∀ s', step s = .next s' → s'.forgetSink = s.consume.forgetSink)

/-- Every step keeps: what the Sink took, and what waits for it, is a subsequence of what was dispatched, in order
(44_collaborators.md section 2). The record of takes is the model's own (log 7). -/
def Obligations.StepKeepsSinkOrder : Prop :=
  ∀ s t : State, s.SinkOrder → step s = .next t → t.SinkOrder

/-- The Sink order holds after reset. -/
def Obligations.SinkOrderAtReset : Prop := State.reset.SinkOrder

/-! ## Rules over all operations -/

/-- The phase moves only along the transition list (43_engine_loop.md section 1), but for a reset. -/
def Obligations.PhaseMovesAlongTheEdges : Prop :=
  ∀ s t : State, step s = .next t →
    phaseEdge s.phase t.phase ∨ (s.nextEvent = .reset ∧ t.phase = .awaitHeader)

/-- 10_state.md R37: only a reset leaves the terminal phase, and only a reset clears `term_cause`. -/
def Obligations.OnlyResetLeavesTerminal : Prop :=
  ∀ s t : State, step s = .next t →
    (s.phase = .terminal → t.phase ≠ .terminal → s.nextEvent = .reset) ∧
    (s.termCause ≠ .none → t.termCause = .none → s.nextEvent = .reset)

/-- A step appends at most one event, never the reserved one, and removes none but at a reset (60_exceptions.md
sections 1 and 4). -/
def Obligations.OneEventPerStep : Prop :=
  ∀ s t : State, step s = .next t →
    t.events = s.events ∨ (∃ e, e ≠ .decodeFailure ∧ t.events = s.events ++ [e]) ∨
      (s.nextEvent = .reset ∧ t.events = [])

/-- The Sink is invoked only with a payload that was held whole and whose divided CRC matched the declared checksum
(42_verifier.md section 2; 95 T3). -/
def Obligations.OnlyVerifiedPayloadsDispatched : Prop :=
  ∀ (s t : State) (p : Bytes), s.Inv → step s = .next t → t.events = s.events ++ [.frame p] →
    s.phase = .dispatching ∧ s.payload = some p ∧ (p.length : Int) = s.hdrLength.toInt ∧
      (((crc32 p).toNat / 100 : Nat) : Int) = s.hdrChecksum.toInt ∧ t.pending = some p

/-- Every recoverable error returns to phase 0 with the count at 0, the mailbox, the cause, the parameters and the
Sink's takes untouched (60_exceptions.md section 2). -/
def Obligations.RecoverableErrorsReturnToAwaitHeader : Prop :=
  ∀ (s t : State) (e : OutEvent), step s = .next t → t.events = s.events ++ [e] →
    e.code = 1 ∨ e.code = 2 ∨ e.code = 3 →
    t.phase = .awaitHeader ∧ t.received = 0#31 ∧ t.pending = s.pending ∧ t.termCause = s.termCause ∧
      t.cfg = s.cfg ∧ t.taken = s.taken

/-- No step changes a parameter (10_state.md section 5). -/
def Obligations.ParametersNeverChange : Prop :=
  ∀ s t : State, step s = .next t → t.cfg = s.cfg

/-- Only a dispatch, a take and a reset change the mailbox: a dispatch to the payload it read, the others to `none`
(20_memory.md section 1 and section 5). -/
def Obligations.MailboxWriters : Prop :=
  ∀ s t : State, step s = .next t → t.pending ≠ s.pending →
    (s.phase = .dispatching ∧ t.phase = .awaitHeader ∧ t.pending = s.payload) ∨
      (s.nextEvent = .take ∧ t.pending = none) ∨ (s.nextEvent = .reset ∧ t.pending = none)

/-! ## The receive request -/

/-- The request function, and its range (43_engine_loop.md section 1). -/
def Obligations.RequestFunction : Prop :=
  ∀ s : State,
    (s.phase = .awaitHeader → s.request = some 12) ∧
    (s.phase = .reassembling → (s.received.toNat : Int) < s.hdrLength.toInt →
      s.request = some (min 32767 (s.hdrLength.toInt - s.received.toNat).toNat)) ∧
    (s.phase ≠ .awaitHeader → ¬ (s.phase = .reassembling ∧ (s.received.toNat : Int) < s.hdrLength.toInt) →
      s.request = none) ∧
    (∀ m, s.request = some m → 1 ≤ m ∧ m ≤ 32767)

/-- While a request is unanswered the engine waits: with no event there is "no step" (30_encoding.md section 1; 93 U14),
which THE MODEL'S CHOICE renders as the refusal `noStep` (log 6), and only an answer, `RX_FATAL`, `SHUTDOWN`, `RESET` or the
Sink's `TAKE` selects an operation (43_engine_loop.md section 1; 60_exceptions.md section 7). -/
def Obligations.BlockedEngineWaits : Prop :=
  ∀ s : State, s.request.isSome = true →
    (s.inputs = [] → step s = .refused .noStep) ∧
    (∀ e i, select s.conditions s.phase e = .ok i →
      e.isAnswer = true ∨ e = .rxFatal ∨ e = .shutdown ∨ e = .reset ∨ e = .take)

/-- 60_exceptions.md R242: one phase-0 datagram with several defects gives exactly one event, the first test's: length,
then magic, then bounds. The statement says nothing of the model's own record of requests (log 13), for which see
`StepExtendsTheRequestSequence`. -/
def Obligations.HeaderDefectPriority : Prop :=
  ∀ (s : State) (u : Bool) (b : Bytes) (rest : List Input),
    s.phase = .awaitHeader → s.inputs = ⟨u, .rxData b⟩ :: rest →
    b.length < 12 ∨ s32be b 0 ≠ -114514 ∨ s32be b 4 < 0 ∨ s.cfg.maxFrameSize.toNat < s32be b 4 →
    ∃ t, step s = .next t ∧
      t = { s with
        inputs := rest
        received := 0#31
        events := s.events ++ [.malformedHeader
          (if b.length < 12 then .shortRead else if s32be b 0 ≠ -114514 then .badMagic else .lengthOutOfBounds)]
        requests := t.requests }

/-- An answer while no request is outstanding, and a timeout where none is configured, are refused by name in every
phase but the terminal one (60_exceptions.md section 5; the terminal phase: log 8), whether the item is urgent or is met
while no internal operation is enabled. -/
def Obligations.ContractBreachesAreRefused : Prop :=
  ∀ (s : State) (u : Bool) (e : Event) (rest : List Input),
    s.phase ≠ .terminal → s.inputs = ⟨u, e⟩ :: rest → u = true ∨ s.tauEnabled = false → e.isAnswer = true →
    (s.request = none → step s = .refused .answerWithoutRequest) ∧
    (s.request.isSome = true → e = .rxTimeout → s.cfg.receiveTimeout = none →
      step s = .refused .timeoutNotConfigured)

/-- A `TAKE` with nothing pending, urgent or met while no internal operation is enabled, is not enabled (95 V71, "the Sink
waits"): there is "no step" (30_encoding.md section 1; 93 U14), which THE MODEL'S CHOICE renders as the refusal `noStep`
(log 6). -/
def Obligations.TakeWithNothingPending : Prop :=
  ∀ (s : State) (u : Bool) (rest : List Input),
    s.inputs = ⟨u, .take⟩ :: rest → u = true ∨ s.tauEnabled = false → s.pending = none →
    step s = .refused .noStep

/-- A shutdown taken before the dispatch loses the verified frame; taken after it, the frame is delivered first. Both
orders are traces (43_engine_loop.md section 3; 95 V65, V66). -/
def Obligations.ShutdownBeforeOrAfterDispatch : Prop :=
  ∀ (s : State) (p : Bytes) (rest : List Input), s.phase = .dispatching → s.payload = some p →
    (s.inputs = ⟨true, .shutdown⟩ :: rest →
      ∃ t, step s = .next t ∧ t.phase = .terminal ∧ t.termCause = .shutdown ∧ t.pending = s.pending ∧
        t.events = s.events ++ [.shutdown] ∧ t.inputs = rest) ∧
    (s.inputs = ⟨false, .shutdown⟩ :: rest →
      ∃ t, runSteps 2 s = .next t ∧ t.phase = .terminal ∧ t.termCause = .shutdown ∧ t.pending = some p ∧
        t.events = s.events ++ [.frame p, .shutdown] ∧ t.inputs = rest)

/-! ## The pure functions -/

/-- 40_header_codec.md R110: on 12 bytes the parser gives the three fields, or `BadMagic`, by the first field alone. -/
def Obligations.ParseHeaderContract : Prop :=
  ∀ h : Bytes, h.length = 12 →
    (s32be h 0 ≠ -114514 → parseHeader h = .error .badMagic) ∧
    (s32be h 0 = -114514 → ∃ f, parseHeader h = .ok f ∧ f.magic.toInt = s32be h 0 ∧
      f.length.toInt = s32be h 4 ∧ f.checksum.toInt = s32be h 8)

/-- 30_encoding.md R83: byte `o` is bits 31:24, byte `o+1` bits 23:16, byte `o+2` bits 15:8, byte `o+3` bits 7:0, and the
pattern is read in two's complement. -/
def Obligations.FieldAssembly : Prop :=
  ∀ (b : Bytes) (o : Nat), o + 4 ≤ b.length →
    (some ((fieldAt b o).extractLsb' 24 8) = b[o]? ∧ some ((fieldAt b o).extractLsb' 16 8) = b[o + 1]? ∧
      some ((fieldAt b o).extractLsb' 8 8) = b[o + 2]? ∧ some ((fieldAt b o).extractLsb' 0 8) = b[o + 3]?) ∧
    s32be b o = if (fieldAt b o).toNat < 2 ^ 31 then ((fieldAt b o).toNat : Int) else (fieldAt b o).toNat - 2 ^ 32

/-- The check values of 42_verifier.md section 1 and of the spec's vectors V47. -/
def Obligations.CrcCheckValues : Prop :=
  crc32 [] = 0x00000000#32 ∧ crc32 [0x00#8] = 0xD202EF8D#32 ∧ crc32 [0x61#8] = 0xE8B7BE43#32 ∧
    crc32 [0x61#8, 0x62#8, 0x63#8] = 0x352441C2#32 ∧
    crc32 [0x31#8, 0x32#8, 0x33#8, 0x34#8, 0x35#8, 0x36#8, 0x37#8, 0x38#8, 0x39#8] = 0xCBF43926#32 ∧ crc32 [0xFF#8, 0xFF#8, 0xFF#8, 0xFF#8] = 0xFFFFFFFF#32 ∧
    crcTable 1#8 = 0x77073096#32 ∧ crcTable 255#8 = 0x2D02EF8D#32

/-- The byte-table form is equivalent to the bitwise loop, for every register value and byte (42_verifier.md
section 1). -/
def Obligations.CrcByteTableForm : Prop :=
  ∀ (c : Word32) (b : Byte), crcByte c b = (c >>> 8) ^^^ crcTable ((c ^^^ b.setWidth 32).setWidth 8)

/-- 42_verifier.md R160: the divided CRC, unsigned, equals the declared value as integers. -/
def Obligations.VerifyContract : Prop :=
  ∀ (p : Bytes) (d : Word32), verify p d = true ↔ (((crc32 p).toNat / 100 : Nat) : Int) = d.toInt

/-- The computed checksum lies in 0 .. 42949672, and no other declared value ever matches (42_verifier.md section 1;
30_encoding.md section 4). -/
def Obligations.ChecksumRange : Prop :=
  ∀ (p : Bytes) (d : Word32), checksumOf p ≤ 42949672 ∧ (d.toInt < 0 ∨ 42949672 < d.toInt → verify p d = false)

/-- What `MemWrite` stores inside the received range, `MemRead` gives back; no other byte and no other state changes; a
write past the capacity has no meaning (20_memory.md section 1). -/
def Obligations.MemWriteThenMemRead : Prop :=
  ∀ (s : State) (addr : Nat) (v : Bytes),
    (s.cfg.maxFrameSize.toNat < addr + v.length → memWrite s addr v = none) ∧
    (addr + v.length ≤ s.cfg.maxFrameSize.toNat → ∃ t, memWrite s addr v = some t ∧ t = { s with buf := t.buf } ∧
      (addr + v.length ≤ s.received.toNat → memRead t addr v.length = some v) ∧
      (∀ a, a < addr ∨ addr + v.length ≤ a → t.buf.readByte a = s.buf.readByte a))

/-! ## Frames -/

/-- Reassembly: from an accepted header, chunks that sum to the declared length leave exactly their concatenation in the
buffer (41_reassembler.md section 5). Every chunk must be selected, so the last is not empty: an empty chunk after the
last byte would meet no request. -/
def Obligations.ReassemblyCollectsThePayload : Prop :=
  ∀ (s : State) (bs : List Bytes), s.phase = .reassembling → s.received = 0#31 →
    s.hdrLength.toInt = bs.flatten.length → s.hdrLength.toInt ≤ s.cfg.maxFrameSize.toNat →
    (∀ b ∈ bs, b.length ≤ 32767) → bs.getLast? ≠ some [] →
    ∃ t, appendAll bs s = .next t ∧ t = { s with received := t.received, buf := t.buf } ∧
      (t.received.toNat : Int) = s.hdrLength.toInt ∧ t.payload = some bs.flatten

/-- Chunking invariance: two splits of one payload both complete, in the very same state (41_reassembler.md section 5). The
last chunk of each is not empty, as in `ReassemblyCollectsThePayload`. -/
def Obligations.ChunkingInvariance : Prop :=
  ∀ (s : State) (bs cs : List Bytes), s.phase = .reassembling → s.received = 0#31 →
    bs.flatten = cs.flatten → s.hdrLength.toInt = bs.flatten.length →
    s.hdrLength.toInt ≤ s.cfg.maxFrameSize.toNat →
    (∀ b ∈ bs, b.length ≤ 32767) → (∀ c ∈ cs, c.length ≤ 32767) →
    bs.getLast? ≠ some [] → cs.getLast? ≠ some [] →
    ∃ t, appendAll bs s = .next t ∧ appendAll cs s = .next t

/-- The main correctness property (43_engine_loop.md section 4, its last rule) for a frame's trace with nothing inside it:
from phase 0, the trace of a conforming sender's frame gives exactly the event `EV_FRAME(P)`, however the payload is cut,
and returns to phase 0; and the engine asks for what remains of the payload before each chunk, `frameRequests`, and for the
next header at the end (95 P4; the record of requests is the model's own, log 13). Left out here: a `TAKE` inside the frame (`FrameIsDeliveredAmongTakes`), and an empty chunk after
the last byte, which would be read as the next header. What follows the frame in the trace does not overtake the engine's
internal steps (log 3). -/
def Obligations.ConformingFrameIsDelivered : Prop :=
  ∀ (s : State) (p : Bytes) (ns : List Nat) (rest : List Input),
    s.phase = .awaitHeader → p.length ≤ s.cfg.maxFrameSize.toNat →
    (∀ n ∈ ns, n ≤ 32767) → ns.sum = p.length → ns.getLast? ≠ some 0 →
    s.inputs = frameTrace p ns ++ rest → (∀ i, rest.head? = some i → i.urgent = false) →
    ∃ t, runSteps (ns.length + 4) s = .next t ∧
      t = State.deadFrom { s with
        received := 0#31
        inputs := rest
        pending := some p
        events := s.events ++ [.frame p]
        requests := s.requests ++ frameRequests p.length ns ++ [12] } t

/-! ## What the invariant says of the past, and frames among takes -/

/-- 10_state.md section 7, the rest of item 7, of the steps: a frame attempt starts with no byte received, and a step inside
it adds to the received bytes exactly the clamped chunk it meets, behind those already there. -/
def Obligations.BufferHoldsTheChunks : Prop :=
  ∀ s t : State, s.Inv → step s = .next t → t.live = true →
    (s.live = false → t.collected = some []) ∧
    (s.live = true → ∃ p, s.collected = some p ∧ t.collected = some (p ++ s.added s.nextEvent))

/-- 10_state.md section 7, item 8, of the steps: a payload in the mailbox was there already, or it was the whole payload of
phase 3, whose divided CRC equalled the declared checksum of its frame. -/
def Obligations.MailboxHoldsVerifiedPayload : Prop :=
  ∀ (s t : State) (p : Bytes), s.Inv → step s = .next t → t.pending = some p →
    s.pending = some p ∨
      (s.phase = .dispatching ∧ s.payload = some p ∧ (((crc32 p).toNat / 100 : Nat) : Int) = s.hdrChecksum.toInt)

/-- A conforming sender's frame is delivered when the Sink takes the frame before it at any place inside it
(43_engine_loop.md section 4, its last rule, which excludes only errors, timeouts, failures, shutdowns and resets). A take
is enabled only while a frame is pending, so there are at most as many as frames pending. The items are plain (log 3); the
records of takes and of requests are the model's own (logs 7 and 13). The last chunk is not empty, as in
`ConformingFrameIsDelivered`. -/
def Obligations.FrameIsDeliveredAmongTakes : Prop :=
  ∀ (s : State) (p : Bytes) (ns : List Nat) (items rest : List Input),
    s.phase = .awaitHeader → p.length ≤ s.cfg.maxFrameSize.toNat →
    (∀ n ∈ ns, n ≤ 32767) → ns.sum = p.length → ns.getLast? ≠ some 0 →
    items.filter (· != takeItem) = frameTrace p ns → items.getLast? ≠ some takeItem →
    items.count takeItem ≤ s.pending.toList.length →
    s.inputs = items ++ rest → (∀ i, rest.head? = some i → i.urgent = false) →
    ∃ t, runSteps (items.length + 3) s = .next t ∧
      t = State.deadFrom { s with
        received := 0#31
        inputs := rest
        pending := some p
        events := s.events ++ [.frame p]
        taken := s.taken ++ s.pending.toList.take (items.count takeItem)
        requests := s.requests ++ frameRequests p.length ns ++ [12] } t

/-- The sequence of requests (00_scope.md section 5): after reset it is one request for a header, and each step that the
engine takes adds the request of its new state, if there is one (43_engine_loop.md section 1). A take is no step of the
engine and adds none, and a timeout in phase 0 adds none either (40_header_codec.md section 2 has "no state change, no
event"): that the sequence starts again at a reset and leaves those two out is THE MODEL'S CHOICE (log 13). -/
def Obligations.StepExtendsTheRequestSequence : Prop :=
  State.reset.requests = [12] ∧
  ∀ s t : State, step s = .next t →
    (s.nextEvent = .reset → t.requests = [12]) ∧
    (s.nextEvent = .take ∨ (s.phase = .awaitHeader ∧ s.nextEvent = .rxTimeout) → t.requests = s.requests) ∧
    (s.nextEvent ≠ .reset → s.nextEvent ≠ .take → ¬ (s.phase = .awaitHeader ∧ s.nextEvent = .rxTimeout) →
      t.requests = s.requests ++ t.request.toList)
end

