-- ==== Sys2Proof/Laws/Codec.lean ====
section
/-! SUPPORT. The laws of the codes, the selector and the header fields. -/

namespace Sys2Proof

@[simp] theorem phaseOfCode_code (p : Phase) : phaseOfCode p.code = some p := by
  cases p <;> rfl

@[simp] theorem eventOfCode_code (e : Event) : eventOfCode e.code e.datagram = some e := by
  cases e <;> rfl

/-- A 3-bit code is a phase's code only if it decodes to that phase. -/
theorem code_of_phaseOfCode {c : BitVec 3} {p : Phase} (h : phaseOfCode c = some p) : p.code = c := by
  have hc : c.toNat < 8 := c.isLt
  apply BitVec.eq_of_toNat_eq
  revert h
  unfold phaseOfCode
  split <;> intro h <;> first | (cases h; simp_all [Phase.code]) | cases h

/-- A code and bytes are an event's only if they decode to that event. -/
theorem code_of_eventOfCode {c : BitVec 3} {b : Bytes} {e : Event} (h : eventOfCode c b = some e) :
    e.code = c ∧ e.datagram = b := by
  unfold eventOfCode at h
  split at h <;> first | (cases h; exact ⟨BitVec.eq_of_toNat_eq (by simp_all [Event.code]), rfl⟩) | cases h

/-- The fields of a byte put together from two codes. -/
theorem codes_fields : ∀ a b : BitVec 3,
    (0#2 ++ a ++ b).extractLsb' 6 2 = 0#2 ∧ (0#2 ++ a ++ b).extractLsb' 3 3 = a ∧
      (0#2 ++ a ++ b).extractLsb' 0 3 = b := by
  decide

/-- The selector's fields (30_encoding.md R80). -/
theorem selector_fields (p : Phase) (e : Event) :
    (selector p e).extractLsb' 6 2 = 0#2 ∧ (selector p e).extractLsb' 3 3 = p.code ∧
      (selector p e).extractLsb' 0 3 = e.code :=
  codes_fields p.code e.code

@[simp] theorem decodeSelector_wordOf (p : Phase) (e : Event) : decodeSelector (wordOf p e) = .ok (p, e) := by
  obtain ⟨h1, h2, h3⟩ := selector_fields p e
  simp [decodeSelector, wordOf, h1, h2, h3]

/-- Decoding the word of a phase and an event is the selection of R81. -/
@[simp] theorem decode_wordOf (k : Conditions) (p : Phase) (e : Event) : decode k (wordOf p e) = select k p e := by
  simp [decode]

@[simp] theorem length_encodeField (w : Word32) : (encodeField w).length = 4 := rfl

@[simp] theorem length_encodeHeader (h : FrameHeader) : (encodeHeader h).length = 12 := rfl

/-- The big-endian reading of four bytes stays below 2^32. -/
theorem u32be_lt (b : Bytes) (o : Nat) : u32be b o < 2 ^ 32 := by
  have h0 := (byteAt b o).isLt
  have h1 := (byteAt b (o + 1)).isLt
  have h2 := (byteAt b (o + 2)).isLt
  have h3 := (byteAt b (o + 3)).isLt
  unfold u32be
  omega

/-- Four bytes of a field read back as the field (30_encoding.md R83). -/
theorem recompose (w : Word32) :
    BitVec.ofNat 32 ((BitVec.ofNat 8 (w.toNat / 2 ^ 24)).toNat * 2 ^ 24 +
      (BitVec.ofNat 8 (w.toNat / 2 ^ 16)).toNat * 2 ^ 16 +
      (BitVec.ofNat 8 (w.toNat / 2 ^ 8)).toNat * 2 ^ 8 + (BitVec.ofNat 8 w.toNat).toNat) = w := by
  have hw : w.toNat < 2 ^ 32 := w.isLt
  apply BitVec.eq_of_toNat_eq
  simp only [BitVec.toNat_ofNat]
  omega

/-- The header read from the 12 bytes that encode it (30_encoding.md R82). -/
@[simp] theorem headerAt_encodeHeader (h : FrameHeader) : headerAt (encodeHeader h) = h := by
  cases h with
  | mk m l c => exact congr (congr (congrArg FrameHeader.mk (recompose m)) (recompose l)) (recompose c)

/-! ## The clamp -/

theorem clamp_eq_take (b : Bytes) (m : Nat) : clamp b m = b.take m := by
  simp only [clamp]
  rcases Nat.le_total b.length m with h | h
  · rw [Nat.min_eq_left h, List.take_length, List.take_of_length_le h]
  · rw [Nat.min_eq_right h]

@[simp] theorem length_clamp (b : Bytes) (m : Nat) : (clamp b m).length = min m b.length := by
  rw [clamp_eq_take, List.length_take]

/-! ## The header of a datagram -/

theorem fieldAt_take (b : Bytes) {o n : Nat} (h : o + 4 ≤ n) : fieldAt (b.take n) o = fieldAt b o := by
  have hb : ∀ i, i < n → byteAt (b.take n) i = byteAt b i := by
    intro i hi
    simp [byteAt, List.getD, hi]
  simp only [fieldAt, u32be, hb o (by omega), hb (o + 1) (by omega), hb (o + 2) (by omega), hb (o + 3) (by omega)]

/-- The clamp does not touch the header (30_encoding.md R85). -/
@[simp] theorem headerAt_clamp (b : Bytes) : headerAt (clamp b Config.headerSize) = headerAt b := by
  rw [clamp_eq_take]
  simp [headerAt, fieldAt_take, Config.headerSize]

theorem magicGood_iff (h : FrameHeader) : h.magicGood = true ↔ h.magic.toInt = Config.magic := by
  simp [FrameHeader.magicGood]

/-- The sentinel test on a datagram's bytes. -/
theorem headerAt_magicGood_iff (b : Bytes) : (headerAt b).magicGood = true ↔ s32be b 0 = -114514 :=
  magicGood_iff _

theorem headerAt_magicGood_false_iff (b : Bytes) : (headerAt b).magicGood = false ↔ s32be b 0 ≠ -114514 := by
  rw [← Bool.not_eq_true, headerAt_magicGood_iff]

theorem lengthInBounds_iff (m : BitVec 31) (l : Word32) :
    lengthInBounds m l = true ↔ 0 ≤ l.toInt ∧ l.toInt ≤ m.toNat := by
  simp [lengthInBounds]

theorem parseHeader_of_good {h : Bytes} (hm : (headerAt h).magicGood = true) : parseHeader h = .ok (headerAt h) := by
  rw [parseHeader, if_pos hm]

theorem parseHeader_of_bad {h : Bytes} (hm : (headerAt h).magicGood = false) : parseHeader h = .error .badMagic := by
  rw [parseHeader, if_neg (by rw [hm]; exact Bool.false_ne_true)]

/-- The classification of a phase-0 datagram, without the clamp (60_exceptions.md R242). -/
theorem decodeHeader_eq (k : Conditions) (b : Bytes) : decodeHeader k b =
    if b.length < 12 then .hdrShort b
    else if (headerAt b).magicGood then
      if lengthInBounds k.maxFrameSize (headerAt b).length then .rsmStart (headerAt b) else .rsmReject (headerAt b)
    else .hdrBadmagic (headerAt b) := by
  have hl : (clamp b Config.headerSize).length < Config.headerSize ↔ b.length < 12 := by simp [Config.headerSize]
  have hc := headerAt_clamp b
  unfold decodeHeader
  generalize clamp b Config.headerSize = c at hl hc ⊢
  by_cases hs : b.length < 12
  · rw [if_pos (hl.2 hs), if_pos hs]
  · rw [if_neg (mt hl.1 hs), if_neg hs]
    cases hm : (headerAt b).magicGood with
    | true => rw [parseHeader_of_good (by rw [hc]; exact hm), hc, if_pos rfl]
    | false => rw [parseHeader_of_bad (by rw [hc]; exact hm), hc, if_neg Bool.false_ne_true]

/-- The bytes of a field are the bytes it was read from. -/
theorem encodeField_fieldAt (b : Bytes) {o : Nat} (h : o + 4 ≤ b.length) :
    encodeField (fieldAt b o) = (b.drop o).take 4 := by
  have h0 := (byteAt b o).isLt
  have h1 := (byteAt b (o + 1)).isLt
  have h2 := (byteAt b (o + 2)).isLt
  have h3 := (byteAt b (o + 3)).isLt
  have he : encodeField (fieldAt b o) = [byteAt b o, byteAt b (o + 1), byteAt b (o + 2), byteAt b (o + 3)] := by
    have hlt := u32be_lt b o
    unfold encodeField fieldAt
    simp only [BitVec.toNat_ofNat, Nat.mod_eq_of_lt hlt]
    refine congrArg₂ List.cons ?_ (congrArg₂ List.cons ?_ (congrArg₂ List.cons ?_ (congrArg₂ List.cons ?_ rfl))) <;>
      apply BitVec.eq_of_toNat_eq <;> simp only [BitVec.toNat_ofNat, u32be] <;> omega
  rw [he]
  apply List.ext_getElem?
  intro i
  rcases i with _ | _ | _ | _ | i <;> simp [byteAt, List.getD, List.getElem?_drop] <;>
    (rw [List.getElem?_eq_getElem (by omega)]; rfl)

/-- The header read from a datagram encodes as its first 12 bytes. -/
theorem encodeHeader_headerAt {b : Bytes} (h : 12 ≤ b.length) : encodeHeader (headerAt b) = b.take 12 := by
  unfold encodeHeader headerAt
  simp only [encodeField_fieldAt b (o := 0) (by omega), encodeField_fieldAt b (o := 4) (by omega),
    encodeField_fieldAt b (o := 8) (by omega), List.drop_zero]
  rw [← List.take_add, ← List.take_add]

/-- A word that spells a phase and an event is their word. -/
theorem wordOf_of_decodeSelector {w : Bytes} {p : Phase} {e : Event} (h : decodeSelector w = .ok (p, e)) :
    w = wordOf p e := by
  have hall : ∀ x : BitVec 8, x.extractLsb' 6 2 = 0#2 →
      (0#2 ++ x.extractLsb' 3 3 ++ x.extractLsb' 0 3 : BitVec 8) = x := by
    decide
  unfold decodeSelector at h
  split at h
  · cases h
  rename_i sel b
  split at h
  · cases h
  rename_i h0
  split at h
  · cases h
  rename_i p' hp
  split at h
  · cases h
  rename_i e' he
  cases h
  obtain ⟨h1, h2⟩ := code_of_eventOfCode he
  have hs : selector p e = sel := by
    unfold selector
    rw [h1, code_of_phaseOfCode hp]
    exact hall sel (by simpa using h0)
  rw [wordOf, hs, h2]

/-- Only a reset selects `ENG.RESET` and only a take `SINK.TAKE`; no datagram selects either. -/
theorem event_of_select {k : Conditions} {p q : Phase} {e : Event} {i : Instr} (h : select k p e = .ok i) :
    (i = .engReset q → e = .reset) ∧ (i = .sinkTake q → e = .take) := by
  cases e
  case rxData b =>
    cases p
    case awaitHeader =>
      simp only [select, selectAwaitHeader, decodeHeader_eq, Except.ok.injEq] at h
      subst h
      constructor <;> intro h <;> (split at h <;> (try split at h) <;> (try split at h) <;> cases h)
    all_goals
      cases hk : k.incomplete <;>
        simp [select, selectReassembling, selectInternal, Event.isAnswer, hk] at h <;> subst h <;> simp
  case reset => exact ⟨fun _ => rfl, by rintro rfl; simp [select] at h⟩
  case take => exact ⟨by rintro rfl; cases hk : k.pendingFull <;> simp [select, hk] at h, fun _ => rfl⟩
  case tau =>
    cases h1 : k.complete <;> cases h2 : k.checksumOk <;> cases p <;>
      simp [select, selectAwaitHeader, selectReassembling, selectInternal, Event.isAnswer, h1, h2] at h <;>
        subst h <;> simp
  case rxError =>
    cases h1 : k.incomplete <;> cases p <;>
      simp [select, selectAwaitHeader, selectReassembling, selectInternal, Event.isAnswer, h1] at h <;>
        subst h <;> simp
  case rxTimeout =>
    cases h1 : k.incomplete <;> cases h2 : k.timeoutConfigured <;> cases p <;>
      simp [select, selectAwaitHeader, selectReassembling, selectInternal, Event.isAnswer, h1, h2] at h <;>
        subst h <;> simp
  all_goals
    cases p <;> simp [select] at h <;> subst h <;> simp

end Sys2Proof
end

