-- ==== Sys2Proof/Laws/Memory.lean ====
section
/-! SUPPORT. The laws of the buffer: a read after a write, the canonical form, and the bytes of a multi-byte access. -/

namespace Sys2Proof.Machine

@[simp] theorem Memory.readByte_nil (a : Nat) : Memory.readByte [] a = none := rfl

@[simp] theorem Memory.writeBytes_nil (m : Memory) (a : Nat) : m.writeBytes a [] = m := rfl

@[simp] theorem Memory.writeBytes_cons (m : Memory) (a : Nat) (v : Byte) (vs : Bytes) :
    m.writeBytes a (v :: vs) = (m.writeByte a v).writeBytes (a + 1) vs := rfl

@[simp] theorem Memory.readBytes_zero (m : Memory) (a : Nat) : m.readBytes a 0 = some [] := rfl

/-- The byte written is the byte read. -/
@[simp] theorem Memory.readByte_writeByte_same (m : Memory) (a : Nat) (v : Byte) :
    (m.writeByte a v).readByte a = some v := by
  induction m with
  | nil => simp [Memory.writeByte, Memory.readByte]
  | cons c m ih =>
    obtain ⟨x, w⟩ := c
    rcases Nat.lt_trichotomy a x with h | h | h
    · simp [Memory.writeByte, Memory.readByte, h]
    · simp [Memory.writeByte, Memory.readByte, h]
    · simp [Memory.writeByte, Memory.readByte, Nat.lt_asymm h, Nat.ne_of_gt h, ih]

/-- A write leaves every other byte alone. -/
theorem Memory.readByte_writeByte_ne (m : Memory) {a b : Nat} (v : Byte) (hb : b ≠ a) :
    (m.writeByte a v).readByte b = m.readByte b := by
  induction m with
  | nil => simp [Memory.writeByte, Memory.readByte, Memory.unlisted, hb]
  | cons c m ih =>
    obtain ⟨x, w⟩ := c
    rcases Nat.lt_trichotomy a x with h | h | h
    · simp [Memory.writeByte, Memory.readByte, h, hb]
    · subst h
      simp [Memory.writeByte, Memory.readByte, hb]
    · by_cases hx : b = x
      · simp [Memory.writeByte, Memory.readByte, Nat.lt_asymm h, Nat.ne_of_gt h, hx]
      · simp [Memory.writeByte, Memory.readByte, Nat.lt_asymm h, Nat.ne_of_gt h, hx, ih]

/-- Everything a multi-byte write does to one byte. -/
theorem Memory.readByte_writeBytes (m : Memory) (a : Nat) (vs : Bytes) (b : Nat) :
    (m.writeBytes a vs).readByte b =
      if a ≤ b ∧ b < a + vs.length then vs[b - a]? else m.readByte b := by
  induction vs generalizing m a with
  | nil => simp
  | cons v vs ih =>
    rw [Memory.writeBytes_cons, ih]
    by_cases h1 : a + 1 ≤ b ∧ b < a + 1 + vs.length
    · have h2 : a ≤ b ∧ b < a + (v :: vs).length := by simp; omega
      have h3 : b - a = (b - (a + 1)) + 1 := by omega
      rw [if_pos h1, if_pos h2, h3, List.getElem?_cons_succ]
    · rw [if_neg h1]
      by_cases h2 : b = a
      · subst h2
        simp
      · have h3 : ¬ (a ≤ b ∧ b < a + (v :: vs).length) := by simp; omega
        rw [if_neg h3, Memory.readByte_writeByte_ne _ _ h2]

/-- A multi-byte read answers exactly the bytes of its range. -/
theorem Memory.readBytes_eq_some_iff (m : Memory) (a n : Nat) (vs : Bytes) :
    m.readBytes a n = some vs ↔ vs.length = n ∧ ∀ i, i < n → m.readByte (a + i) = vs[i]? := by
  induction n generalizing a vs with
  | zero =>
    constructor
    · intro h
      simp only [Memory.readBytes_zero, Option.some.injEq] at h
      subst h
      simp
    · rintro ⟨h, -⟩
      rw [List.length_eq_zero_iff] at h
      subst h
      rfl
  | succ n ih =>
    constructor
    · intro h
      unfold Memory.readBytes at h
      split at h
      · rename_i v us hv hus
        cases h
        obtain ⟨hl, hr⟩ := (ih _ _).1 hus
        refine ⟨by simp [hl], fun i hi => ?_⟩
        cases i with
        | zero => simpa using hv
        | succ i => simpa [Nat.add_comm, Nat.add_left_comm] using hr i (by omega)
      · cases h
    · rintro ⟨hl, hr⟩
      cases vs with
      | nil => simp at hl
      | cons v us =>
        have hv : m.readByte a = some v := by simpa using hr 0 (by omega)
        have hus : m.readBytes (a + 1) n = some us := by
          refine (ih _ _).2 ⟨by simpa using hl, fun i hi => ?_⟩
          simpa [Nat.add_comm, Nat.add_left_comm] using hr (i + 1) (by omega)
        simp [Memory.readBytes, hv, hus]

/-- The canonical form is that the offsets strictly rise. -/
theorem Memory.wf_iff_pairwise (m : Memory) : m.wf = true ↔ (m.map Prod.fst).Pairwise (· < ·) := by
  induction m with
  | nil => simp [Memory.wf]
  | cons c m ih =>
    cases m with
    | nil => simp [Memory.wf]
    | cons d m =>
      obtain ⟨a, v⟩ := c
      obtain ⟨b, w⟩ := d
      simp only [Memory.wf, Bool.and_eq_true, decide_eq_true_eq, ih, List.map_cons, List.pairwise_cons,
        List.mem_cons, forall_eq_or_imp]
      constructor
      · rintro ⟨h, h1, h2⟩
        exact ⟨⟨h, fun x hx => Nat.lt_trans h (h1 x hx)⟩, h1, h2⟩
      · rintro ⟨⟨h, -⟩, h1, h2⟩
        exact ⟨h, h1, h2⟩

/-- The offsets after a write. -/
theorem Memory.mem_offsets_writeByte (m : Memory) (a b : Nat) (v : Byte) :
    b ∈ (m.writeByte a v).map Prod.fst ↔ b = a ∨ b ∈ m.map Prod.fst := by
  induction m with
  | nil => simp [Memory.writeByte]
  | cons c m ih =>
    obtain ⟨x, w⟩ := c
    rcases Nat.lt_trichotomy a x with h | h | h
    · simp [Memory.writeByte, h]
    · subst h
      simp [Memory.writeByte]
    · simp only [Memory.writeByte, Nat.lt_asymm h, Nat.ne_of_gt h, if_false, List.map_cons, List.mem_cons, ih]
      tauto

/-- Writing one byte keeps the canonical form. -/
theorem Memory.wf_writeByte (m : Memory) (a : Nat) (v : Byte) (h : m.wf = true) : (m.writeByte a v).wf = true := by
  rw [Memory.wf_iff_pairwise] at h ⊢
  induction m with
  | nil => simp [Memory.writeByte]
  | cons c m ih =>
    obtain ⟨x, w⟩ := c
    simp only [List.map_cons, List.pairwise_cons] at h
    rcases Nat.lt_trichotomy a x with hx | hx | hx
    · simp only [Memory.writeByte, if_pos hx, List.map_cons, List.pairwise_cons, List.mem_cons, forall_eq_or_imp]
      exact ⟨⟨hx, fun y hy => Nat.lt_trans hx (h.1 y hy)⟩, h⟩
    · subst hx
      simpa [Memory.writeByte] using h
    · simp only [Memory.writeByte, Nat.lt_asymm hx, Nat.ne_of_gt hx, if_false, List.map_cons, List.pairwise_cons]
      refine ⟨fun y hy => ?_, ih h.2⟩
      rcases (Memory.mem_offsets_writeByte m a y v).1 hy with rfl | hy
      · exact hx
      · exact h.1 y hy

/-- Writing a byte string keeps the canonical form. -/
theorem Memory.wf_writeBytes (m : Memory) (a : Nat) (vs : Bytes) (h : m.wf = true) :
    (m.writeBytes a vs).wf = true := by
  induction vs generalizing m a with
  | nil => exact h
  | cons v vs ih => exact ih _ _ (Memory.wf_writeByte m a v h)

/-- Writing past every offset lists the new offset last. -/
theorem Memory.offsets_writeByte_append (m : Memory) (a : Nat) (v : Byte) (h : ∀ x ∈ m.map Prod.fst, x < a) :
    (m.writeByte a v).map Prod.fst = m.map Prod.fst ++ [a] := by
  induction m with
  | nil => simp [Memory.writeByte]
  | cons c m ih =>
    obtain ⟨x, w⟩ := c
    have hx : x < a := h x (by simp)
    simp only [Memory.writeByte, Nat.lt_asymm hx, Nat.ne_of_gt hx, if_false, List.map_cons, List.cons_append]
    rw [ih (fun y hy => h y (by simp only [List.map_cons, List.mem_cons]; exact Or.inr hy))]

/-- Appending to a buffer written in `[0, n)` makes it written in `[0, n + length)` (20_memory.md R53). -/
theorem Memory.offsets_writeBytes_append (m : Memory) (n : Nat) (vs : Bytes) (h : m.map Prod.fst = List.range n) :
    (m.writeBytes n vs).map Prod.fst = List.range (n + vs.length) := by
  induction vs generalizing m n with
  | nil => simpa using h
  | cons v vs ih =>
    rw [Memory.writeBytes_cons, List.length_cons, ← Nat.add_assoc, Nat.add_right_comm]
    apply ih
    rw [Memory.offsets_writeByte_append m n v (by rw [h]; intro x hx; simpa using hx), h, List.range_succ]

/-- A listed offset has a value. -/
theorem Memory.readByte_isSome_iff (m : Memory) (a : Nat) : (m.readByte a).isSome = true ↔ a ∈ m.map Prod.fst := by
  induction m with
  | nil => simp
  | cons c m ih =>
    obtain ⟨x, w⟩ := c
    by_cases h : a = x
    · simp [Memory.readByte, h]
    · simpa [Memory.readByte, h] using ih

/-- A buffer written in `[0, n)` can be read there. -/
theorem Memory.readBytes_isSome_of_offsets (m : Memory) (n : Nat) (h : m.map Prod.fst = List.range n) (a k : Nat)
    (hk : a + k ≤ n) : ∃ vs, m.readBytes a k = some vs := by
  induction k generalizing a with
  | zero => exact ⟨[], rfl⟩
  | succ k ih =>
    obtain ⟨vs, hvs⟩ := ih (a + 1) (by omega)
    have ha : (m.readByte a).isSome = true := by
      rw [Memory.readByte_isSome_iff, h, List.mem_range]
      omega
    obtain ⟨v, hv⟩ := Option.isSome_iff_exists.1 ha
    exact ⟨v :: vs, by simp [Memory.readBytes, hv, hvs]⟩

end Sys2Proof.Machine
end

