-- ==== Sys2Proof/Laws/State.lean ====
section
/-! SUPPORT. The fields of each named update of the state, one lemma per field. -/

namespace Sys2Proof.Machine

/-! ### `emit` -/

@[simp] theorem State.emit_phase (s : State) (e : OutEvent) : (s.emit e).phase = s.phase := rfl
@[simp] theorem State.emit_hdrMagic (s : State) (e : OutEvent) : (s.emit e).hdrMagic = s.hdrMagic := rfl
@[simp] theorem State.emit_hdrLength (s : State) (e : OutEvent) : (s.emit e).hdrLength = s.hdrLength := rfl
@[simp] theorem State.emit_hdrChecksum (s : State) (e : OutEvent) : (s.emit e).hdrChecksum = s.hdrChecksum := rfl
@[simp] theorem State.emit_received (s : State) (e : OutEvent) : (s.emit e).received = s.received := rfl
@[simp] theorem State.emit_buf (s : State) (e : OutEvent) : (s.emit e).buf = s.buf := rfl
@[simp] theorem State.emit_termCause (s : State) (e : OutEvent) : (s.emit e).termCause = s.termCause := rfl
@[simp] theorem State.emit_pending (s : State) (e : OutEvent) : (s.emit e).pending = s.pending := rfl
@[simp] theorem State.emit_events (s : State) (e : OutEvent) : (s.emit e).events = s.events ++ [e] := rfl
@[simp] theorem State.emit_cfg (s : State) (e : OutEvent) : (s.emit e).cfg = s.cfg := rfl
@[simp] theorem State.emit_inputs (s : State) (e : OutEvent) : (s.emit e).inputs = s.inputs := rfl
@[simp] theorem State.emit_taken (s : State) (e : OutEvent) : (s.emit e).taken = s.taken := rfl
@[simp] theorem State.emit_requests (s : State) (e : OutEvent) : (s.emit e).requests = s.requests := rfl
@[simp] theorem State.emit_freeCount (s : State) (e : OutEvent) : (s.emit e).freeCount = s.freeCount := rfl

/-! ### `endAttempt` -/

@[simp] theorem State.endAttempt_phase (s : State) : (s.endAttempt).phase = s.phase := rfl
@[simp] theorem State.endAttempt_hdrMagic (s : State) : (s.endAttempt).hdrMagic = Config.freeWord s.freeCount := rfl
@[simp] theorem State.endAttempt_hdrLength (s : State) : (s.endAttempt).hdrLength = Config.freeWord (s.freeCount + 1) := rfl
@[simp] theorem State.endAttempt_hdrChecksum (s : State) : (s.endAttempt).hdrChecksum = Config.freeWord (s.freeCount + 2) := rfl
@[simp] theorem State.endAttempt_received (s : State) : (s.endAttempt).received = 0#31 := rfl
@[simp] theorem State.endAttempt_buf (s : State) : (s.endAttempt).buf = [] := rfl
@[simp] theorem State.endAttempt_termCause (s : State) : (s.endAttempt).termCause = s.termCause := rfl
@[simp] theorem State.endAttempt_pending (s : State) : (s.endAttempt).pending = s.pending := rfl
@[simp] theorem State.endAttempt_events (s : State) : (s.endAttempt).events = s.events := rfl
@[simp] theorem State.endAttempt_cfg (s : State) : (s.endAttempt).cfg = s.cfg := rfl
@[simp] theorem State.endAttempt_inputs (s : State) : (s.endAttempt).inputs = s.inputs := rfl
@[simp] theorem State.endAttempt_taken (s : State) : (s.endAttempt).taken = s.taken := rfl
@[simp] theorem State.endAttempt_requests (s : State) : (s.endAttempt).requests = s.requests := rfl
@[simp] theorem State.endAttempt_freeCount (s : State) : (s.endAttempt).freeCount = s.freeCount + 3 := rfl

/-! ### `halt` -/

@[simp] theorem State.halt_phase (s : State) (c : TermCause) (e : OutEvent) : (s.halt c e).phase = .terminal := rfl
@[simp] theorem State.halt_hdrMagic (s : State) (c : TermCause) (e : OutEvent) : (s.halt c e).hdrMagic = Config.freeWord s.freeCount := rfl
@[simp] theorem State.halt_hdrLength (s : State) (c : TermCause) (e : OutEvent) : (s.halt c e).hdrLength = Config.freeWord (s.freeCount + 1) := rfl
@[simp] theorem State.halt_hdrChecksum (s : State) (c : TermCause) (e : OutEvent) : (s.halt c e).hdrChecksum = Config.freeWord (s.freeCount + 2) := rfl
@[simp] theorem State.halt_received (s : State) (c : TermCause) (e : OutEvent) : (s.halt c e).received = 0#31 := rfl
@[simp] theorem State.halt_buf (s : State) (c : TermCause) (e : OutEvent) : (s.halt c e).buf = [] := rfl
@[simp] theorem State.halt_termCause (s : State) (c : TermCause) (e : OutEvent) : (s.halt c e).termCause = c := rfl
@[simp] theorem State.halt_pending (s : State) (c : TermCause) (e : OutEvent) : (s.halt c e).pending = s.pending := rfl
@[simp] theorem State.halt_events (s : State) (c : TermCause) (e : OutEvent) : (s.halt c e).events = s.events ++ [e] := rfl
@[simp] theorem State.halt_cfg (s : State) (c : TermCause) (e : OutEvent) : (s.halt c e).cfg = s.cfg := rfl
@[simp] theorem State.halt_inputs (s : State) (c : TermCause) (e : OutEvent) : (s.halt c e).inputs = s.inputs := rfl
@[simp] theorem State.halt_taken (s : State) (c : TermCause) (e : OutEvent) : (s.halt c e).taken = s.taken := rfl
@[simp] theorem State.halt_requests (s : State) (c : TermCause) (e : OutEvent) : (s.halt c e).requests = s.requests := rfl
@[simp] theorem State.halt_freeCount (s : State) (c : TermCause) (e : OutEvent) : (s.halt c e).freeCount = s.freeCount + 3 := rfl

/-! ### `resetBlock` -/

@[simp] theorem State.resetBlock_phase (s : State) : (s.resetBlock).phase = .awaitHeader := rfl
@[simp] theorem State.resetBlock_hdrMagic (s : State) : (s.resetBlock).hdrMagic = Config.freeWord s.freeCount := rfl
@[simp] theorem State.resetBlock_hdrLength (s : State) : (s.resetBlock).hdrLength = Config.freeWord (s.freeCount + 1) := rfl
@[simp] theorem State.resetBlock_hdrChecksum (s : State) : (s.resetBlock).hdrChecksum = Config.freeWord (s.freeCount + 2) := rfl
@[simp] theorem State.resetBlock_received (s : State) : (s.resetBlock).received = 0#31 := rfl
@[simp] theorem State.resetBlock_buf (s : State) : (s.resetBlock).buf = [] := rfl
@[simp] theorem State.resetBlock_termCause (s : State) : (s.resetBlock).termCause = .none := rfl
@[simp] theorem State.resetBlock_pending (s : State) : (s.resetBlock).pending = none := rfl
@[simp] theorem State.resetBlock_events (s : State) : (s.resetBlock).events = [] := rfl
@[simp] theorem State.resetBlock_cfg (s : State) : (s.resetBlock).cfg = s.cfg := rfl
@[simp] theorem State.resetBlock_inputs (s : State) : (s.resetBlock).inputs = s.inputs := rfl
@[simp] theorem State.resetBlock_taken (s : State) : (s.resetBlock).taken = [] := rfl
@[simp] theorem State.resetBlock_requests (s : State) : (s.resetBlock).requests = [] := rfl
@[simp] theorem State.resetBlock_freeCount (s : State) : (s.resetBlock).freeCount = s.freeCount + 3 := rfl

/-! ### `recover` -/

@[simp] theorem State.recover_phase (s : State) (e : OutEvent) : (s.recover e).phase = .awaitHeader := by
  unfold State.recover
  split <;> simp_all
@[simp] theorem State.recover_received (s : State) (e : OutEvent) : (s.recover e).received = 0#31 := by
  unfold State.recover
  split <;> simp_all
@[simp] theorem State.recover_events (s : State) (e : OutEvent) : (s.recover e).events = s.events ++ [e] := by
  unfold State.recover
  split <;> simp_all
@[simp] theorem State.recover_termCause (s : State) (e : OutEvent) : (s.recover e).termCause = s.termCause := by
  unfold State.recover
  split <;> simp_all
@[simp] theorem State.recover_pending (s : State) (e : OutEvent) : (s.recover e).pending = s.pending := by
  unfold State.recover
  split <;> simp_all
@[simp] theorem State.recover_cfg (s : State) (e : OutEvent) : (s.recover e).cfg = s.cfg := by
  unfold State.recover
  split <;> simp_all
@[simp] theorem State.recover_inputs (s : State) (e : OutEvent) : (s.recover e).inputs = s.inputs := by
  unfold State.recover
  split <;> simp_all
@[simp] theorem State.recover_taken (s : State) (e : OutEvent) : (s.recover e).taken = s.taken := by
  unfold State.recover
  split <;> simp_all
@[simp] theorem State.recover_requests (s : State) (e : OutEvent) : (s.recover e).requests = s.requests := by
  unfold State.recover
  split <;> simp_all

/-! ### `consume` -/

@[simp] theorem State.consume_phase (s : State) : s.consume.phase = s.phase := by
  unfold State.consume
  split <;> rfl
@[simp] theorem State.consume_hdrMagic (s : State) : s.consume.hdrMagic = s.hdrMagic := by
  unfold State.consume
  split <;> rfl
@[simp] theorem State.consume_hdrLength (s : State) : s.consume.hdrLength = s.hdrLength := by
  unfold State.consume
  split <;> rfl
@[simp] theorem State.consume_hdrChecksum (s : State) : s.consume.hdrChecksum = s.hdrChecksum := by
  unfold State.consume
  split <;> rfl
@[simp] theorem State.consume_received (s : State) : s.consume.received = s.received := by
  unfold State.consume
  split <;> rfl
@[simp] theorem State.consume_buf (s : State) : s.consume.buf = s.buf := by
  unfold State.consume
  split <;> rfl
@[simp] theorem State.consume_termCause (s : State) : s.consume.termCause = s.termCause := by
  unfold State.consume
  split <;> rfl
@[simp] theorem State.consume_pending (s : State) : s.consume.pending = s.pending := by
  unfold State.consume
  split <;> rfl
@[simp] theorem State.consume_events (s : State) : s.consume.events = s.events := by
  unfold State.consume
  split <;> rfl
@[simp] theorem State.consume_cfg (s : State) : s.consume.cfg = s.cfg := by
  unfold State.consume
  split <;> rfl
@[simp] theorem State.consume_inputs (s : State) :
    s.consume.inputs = if s.headTaken then s.inputs.tail else s.inputs := by
  unfold State.consume
  split <;> rfl
@[simp] theorem State.consume_taken (s : State) : s.consume.taken = s.taken := by
  unfold State.consume
  split <;> rfl
@[simp] theorem State.consume_requests (s : State) : s.consume.requests = s.requests := by
  unfold State.consume
  split <;> rfl
@[simp] theorem State.consume_freeCount (s : State) : s.consume.freeCount = s.freeCount := by
  unfold State.consume
  split <;> rfl

/-! ### `noteRequest` -/

@[simp] theorem State.noteRequest_phase (i : Instr) (s : State) : (s.noteRequest i).phase = s.phase := rfl
@[simp] theorem State.noteRequest_hdrMagic (i : Instr) (s : State) : (s.noteRequest i).hdrMagic = s.hdrMagic := rfl
@[simp] theorem State.noteRequest_hdrLength (i : Instr) (s : State) : (s.noteRequest i).hdrLength = s.hdrLength := rfl
@[simp] theorem State.noteRequest_hdrChecksum (i : Instr) (s : State) : (s.noteRequest i).hdrChecksum = s.hdrChecksum := rfl
@[simp] theorem State.noteRequest_received (i : Instr) (s : State) : (s.noteRequest i).received = s.received := rfl
@[simp] theorem State.noteRequest_buf (i : Instr) (s : State) : (s.noteRequest i).buf = s.buf := rfl
@[simp] theorem State.noteRequest_termCause (i : Instr) (s : State) : (s.noteRequest i).termCause = s.termCause := rfl
@[simp] theorem State.noteRequest_pending (i : Instr) (s : State) : (s.noteRequest i).pending = s.pending := rfl
@[simp] theorem State.noteRequest_events (i : Instr) (s : State) : (s.noteRequest i).events = s.events := rfl
@[simp] theorem State.noteRequest_cfg (i : Instr) (s : State) : (s.noteRequest i).cfg = s.cfg := rfl
@[simp] theorem State.noteRequest_inputs (i : Instr) (s : State) : (s.noteRequest i).inputs = s.inputs := rfl
@[simp] theorem State.noteRequest_taken (i : Instr) (s : State) : (s.noteRequest i).taken = s.taken := rfl
@[simp] theorem State.noteRequest_freeCount (i : Instr) (s : State) : (s.noteRequest i).freeCount = s.freeCount := rfl
@[simp] theorem State.noteRequest_requests (i : Instr) (s : State) :
    (s.noteRequest i).requests = s.requests ++ if makesRequest i then s.request.toList else [] := rfl
@[simp] theorem State.noteRequest_lengthVal (i : Instr) (s : State) : (s.noteRequest i).lengthVal = s.lengthVal := rfl
@[simp] theorem State.noteRequest_request (i : Instr) (s : State) : (s.noteRequest i).request = s.request := rfl
@[simp] theorem State.noteRequest_payload (i : Instr) (s : State) : (s.noteRequest i).payload = s.payload := rfl
@[simp] theorem State.noteRequest_checksumOk (i : Instr) (s : State) : (s.noteRequest i).checksumOk = s.checksumOk := rfl

/-! ### What reads no input is the same after an item is used up -/

@[simp] theorem State.consume_lengthVal (s : State) : s.consume.lengthVal = s.lengthVal := by
  simp [State.lengthVal]

@[simp] theorem State.consume_incomplete (s : State) : s.consume.incomplete = s.incomplete := by
  simp [State.incomplete]

@[simp] theorem State.consume_complete (s : State) : s.consume.complete = s.complete := by
  simp [State.complete]

@[simp] theorem State.consume_want (s : State) : s.consume.want = s.want := by
  simp [State.want]

@[simp] theorem State.consume_chunk (s : State) (b : Bytes) : s.consume.chunk b = s.chunk b := by
  simp [State.chunk]

@[simp] theorem State.consume_payload (s : State) : s.consume.payload = s.payload := by
  simp [State.payload, memRead]

@[simp] theorem State.consume_checksumOk (s : State) : s.consume.checksumOk = s.checksumOk := by
  simp [State.checksumOk]

@[simp] theorem State.consume_conditions (s : State) : s.consume.conditions = s.conditions := by
  simp [State.conditions]

@[simp] theorem State.consume_request (s : State) : s.consume.request = s.request := by
  simp [State.request]

/-! ### The fields of the conditions -/

@[simp] theorem State.conditions_maxFrameSize (s : State) : s.conditions.maxFrameSize = s.cfg.maxFrameSize := rfl
@[simp] theorem State.conditions_timeoutConfigured (s : State) :
    s.conditions.timeoutConfigured = s.cfg.receiveTimeout.isSome := rfl
@[simp] theorem State.conditions_incomplete (s : State) : s.conditions.incomplete = s.incomplete := rfl
@[simp] theorem State.conditions_complete (s : State) : s.conditions.complete = s.complete := rfl
@[simp] theorem State.conditions_checksumOk (s : State) : s.conditions.checksumOk = s.checksumOk := rfl
@[simp] theorem State.conditions_pendingFull (s : State) : s.conditions.pendingFull = s.pending.isSome := rfl

end Sys2Proof.Machine
end

