-- ==== Sys2Proof/Laws/Ops.lean ====
section
/-! SUPPORT. For each shared operation, one lemma that says everything it can do. -/

namespace Sys2Proof.Machine

/-! ### The guard -/

theorem whenSelected_of_true {c : Bool} {r : Result} (h : c = true) : whenSelected c r = r := by
  simp [whenSelected, h]

theorem whenSelected_of_false {c : Bool} {r : Result} (h : c = false) :
    whenSelected c r = .refused .notSelected := by
  simp [whenSelected, h]

theorem whenSelected_eq_next_iff {c : Bool} {r : Result} {t : State} :
    whenSelected c r = .next t ↔ c = true ∧ r = .next t := by
  cases c <;> simp [whenSelected]

theorem whenSelected_eq_fault_iff {c : Bool} {r : Result} {q : Fault} :
    whenSelected c r = .fault q ↔ c = true ∧ r = .fault q := by
  cases c <;> simp [whenSelected]

/-! ### Memory access -/

theorem memRead_eq_some_iff (s : State) (a n : Nat) (vs : Bytes) :
    memRead s a n = some vs ↔
      a + n ≤ s.received.toNat ∧ vs.length = n ∧ ∀ i, i < n → s.buf.readByte (a + i) = vs[i]? := by
  unfold memRead
  split
  · rename_i h
    simp [h, Memory.readBytes_eq_some_iff]
  · rename_i h
    simp [h]

theorem memWrite_eq_some_iff (s t : State) (a : Nat) (v : Bytes) :
    memWrite s a v = some t ↔
      a + v.length ≤ s.cfg.maxFrameSize.toNat ∧ t = { s with buf := s.buf.writeBytes a v } := by
  unfold memWrite
  split
  · rename_i h
    simp [h, eq_comm]
  · rename_i h
    simp [h]

/-- The payload, when it can be read: `hdr_length` bytes, each the buffer's. -/
theorem payload_eq_some_iff (s : State) (p : Bytes) :
    s.payload = some p ↔
      0 ≤ s.lengthVal ∧ s.lengthVal.toNat ≤ s.received.toNat ∧ p.length = s.lengthVal.toNat ∧
        ∀ i, i < p.length → s.buf.readByte i = p[i]? := by
  unfold State.payload
  split
  · rename_i h
    simp only [memRead_eq_some_iff, Nat.zero_add, h, true_and]
    constructor
    · rintro ⟨h1, h2, h3⟩
      exact ⟨h1, h2, h2 ▸ h3⟩
    · rintro ⟨h1, h2, h3⟩
      exact ⟨h1, h2, h2 ▸ h3⟩
  · rename_i h
    simp [h]

/-! ### The conditions and the request -/

theorem incomplete_iff (s : State) : s.incomplete = true ↔ (s.received.toNat : Int) < s.hdrLength.toInt :=
  decide_eq_true_iff

theorem complete_iff (s : State) : s.complete = true ↔ (s.received.toNat : Int) = s.hdrLength.toInt :=
  decide_eq_true_iff

theorem checksumOk_iff (s : State) :
    s.checksumOk = true ↔ ∃ p, s.payload = some p ∧ verify p s.hdrChecksum = true := by
  unfold State.checksumOk
  cases s.payload <;> simp

theorem length_chunk_le (s : State) (b : Bytes) : (s.chunk b).length ≤ s.want := by
  simp [State.chunk]

theorem want_le_remaining (s : State) : s.want ≤ (s.lengthVal - s.received.toNat).toNat :=
  Nat.min_le_right _ _

/-! ### The error entry -/

/-- Everything a recoverable error does, apart from the dead registers and the buffer (60_exceptions.md R239). -/
theorem recover_eq (s : State) (e : OutEvent) :
    s.recover e =
      { s with
        phase := .awaitHeader
        received := 0#31
        events := s.events ++ [e]
        hdrMagic := (s.recover e).hdrMagic
        hdrLength := (s.recover e).hdrLength
        hdrChecksum := (s.recover e).hdrChecksum
        buf := (s.recover e).buf
        freeCount := (s.recover e).freeCount } := by
  unfold State.recover
  split <;> rename_i h <;> simp [State.emit, State.endAttempt, h]

/-- In phase 0 a rejected header changes only the event stream and keeps the count at 0. -/
theorem recover_awaitHeader (s : State) (e : OutEvent) (h : s.phase = .awaitHeader) :
    s.recover e = { s with received := 0#31, events := s.events ++ [e] } := by
  simp [State.recover, h, State.emit]

/-- Outside phase 0 the buffer is reset. -/
theorem recover_buf_of_ne (s : State) (e : OutEvent) (h : s.phase ≠ .awaitHeader) : (s.recover e).buf = [] := by
  unfold State.recover
  split
  · contradiction
  · rfl

/-! ### The step -/

/-- A request is made only beside a next state. -/
theorem noted_eq_next_iff (i : Instr) (r : Result) (t : State) :
    noted i r = .next t ↔ ∃ u, r = .next u ∧ t = u.noteRequest i := by
  cases r <;> simp [noted, @eq_comm State _ t]

@[simp] theorem noted_next (i : Instr) (t : State) : noted i (.next t) = .next (t.noteRequest i) := rfl

/-- An operation that makes no request leaves the record of requests as it is. -/
theorem noteRequest_of_not_makesRequest {i : Instr} (h : makesRequest i = false) (t : State) : t.noteRequest i = t := by
  simp [State.noteRequest, h]

theorem step_of_decode {s : State} {i : Instr} (h : decode s.conditions s.fetchWord = .ok i) :
    step s = noted i (exec i s.consume) := by
  simp [step, h]

theorem step_of_error {s : State} {r : DecodeError} (h : decode s.conditions s.fetchWord = .error r) :
    step s = unselected r := by
  simp [step, h]

/-- Where nothing is selected there is no next state. -/
theorem unselected_ne_next (r : DecodeError) (t : State) : unselected r ≠ .next t := by
  cases r <;> simp [unselected]

/-- The word fetched decodes to what the phase and the next event select. -/
theorem decode_fetchWord (s : State) :
    decode s.conditions s.fetchWord = select s.conditions s.phase s.nextEvent :=
  decode_wordOf _ _ _

/-- What a step that answers a next state did: it ran the operation that the phase and the next event select, and made the
request the new state asks for. -/
theorem step_next_cases {s t : State} (h : step s = .next t) :
    ∃ i u, select s.conditions s.phase s.nextEvent = .ok i ∧ exec i s.consume = .next u ∧ t = u.noteRequest i := by
  unfold step at h
  split at h
  · rename_i i hi
    obtain ⟨u, hu, ht⟩ := (noted_eq_next_iff i _ t).1 h
    exact ⟨i, u, (decode_fetchWord s).symm.trans hi, hu, ht⟩
  · rename_i r _
    exact absurd h (unselected_ne_next r t)

end Sys2Proof.Machine
end

