-- ==== Sys2Proof/Laws/Meanings.lean ====
section
/-! SUPPORT. For each meaning, when it answers a next state and which: the one lemma later proofs cite instead of
unfolding it. -/

namespace Sys2Proof.Machine

theorem execHdrShort_eq_next_iff (b : Bytes) (s t : State) :
    execHdrShort b s = .next t ↔
      (s.phase = .awaitHeader ∧ b.length < 12) ∧ t = s.recover (.malformedHeader .shortRead) := by
  simp [execHdrShort, whenSelected_eq_next_iff, Config.headerSize, @eq_comm State _ t]

theorem execHdrBadmagic_eq_next_iff (h : FrameHeader) (s t : State) :
    execHdrBadmagic h s = .next t ↔
      (s.phase = .awaitHeader ∧ h.magicGood = false) ∧ t = s.recover (.malformedHeader .badMagic) := by
  simp [execHdrBadmagic, whenSelected_eq_next_iff, @eq_comm State _ t]

theorem execHdrReaderr_eq_next_iff (s t : State) :
    execHdrReaderr s = .next t ↔ s.phase = .awaitHeader ∧ t = s.recover (.malformedHeader .readError) := by
  simp [execHdrReaderr, whenSelected_eq_next_iff, @eq_comm State _ t]

theorem execHdrIdle_eq_next_iff (s t : State) :
    execHdrIdle s = .next t ↔ (s.phase = .awaitHeader ∧ s.cfg.receiveTimeout.isSome = true) ∧ t = s := by
  simp only [execHdrIdle, whenSelected_eq_next_iff, Bool.and_eq_true, beq_iff_eq, Host.Outcome.next.injEq]
  constructor
  · rintro ⟨⟨h1, h2⟩, rfl⟩
    exact ⟨⟨h1, h2⟩, by rw [← h1]⟩
  · rintro ⟨⟨h1, h2⟩, rfl⟩
    exact ⟨⟨h1, h2⟩, by rw [← h1]⟩

theorem execRsmReject_eq_next_iff (h : FrameHeader) (s t : State) :
    execRsmReject h s = .next t ↔
      (s.phase = .awaitHeader ∧ h.magicGood = true ∧ lengthInBounds s.cfg.maxFrameSize h.length = false) ∧
        t = s.recover (.malformedHeader .lengthOutOfBounds) := by
  simp [execRsmReject, whenSelected_eq_next_iff, @eq_comm State _ t, and_assoc]

theorem execRsmStart_eq_next_iff (h : FrameHeader) (s t : State) :
    execRsmStart h s = .next t ↔
      (s.phase = .awaitHeader ∧ h.magicGood = true ∧ lengthInBounds s.cfg.maxFrameSize h.length = true) ∧
        t = { s with hdrMagic := h.magic, hdrLength := h.length, hdrChecksum := h.checksum, received := 0#31,
                     buf := [], phase := .reassembling } := by
  simp [execRsmStart, whenSelected_eq_next_iff, @eq_comm State _ t, and_assoc]

theorem execRsmAppend_eq_next_iff (b : Bytes) (s t : State) :
    execRsmAppend b s = .next t ↔
      (s.phase = .reassembling ∧ s.incomplete = true ∧
        s.received.toNat + (s.chunk b).length ≤ s.cfg.maxFrameSize.toNat) ∧
        t = { s with buf := s.buf.writeBytes s.received.toNat (s.chunk b)
                     received := BitVec.ofNat 31 (s.received.toNat + (s.chunk b).length) } := by
  unfold execRsmAppend
  rw [whenSelected_eq_next_iff]
  by_cases hc : s.received.toNat + (s.chunk b).length ≤ s.cfg.maxFrameSize.toNat
  · simp [memWrite, hc, @eq_comm State _ t, and_assoc]
  · simp [memWrite, hc]

theorem execRsmAbort_eq_next_iff (s t : State) :
    execRsmAbort s = .next t ↔
      (s.phase = .reassembling ∧ s.incomplete = true) ∧
        t = s.recover (.reassemblyFailure .receiveError s.received.toNat s.lengthVal) := by
  simp [execRsmAbort, whenSelected_eq_next_iff, @eq_comm State _ t]

theorem execRsmTimeout_eq_next_iff (s t : State) :
    execRsmTimeout s = .next t ↔
      (s.phase = .reassembling ∧ s.incomplete = true ∧ s.cfg.receiveTimeout.isSome = true) ∧
        t = s.recover (.reassemblyFailure .timeout s.received.toNat s.lengthVal) := by
  simp [execRsmTimeout, whenSelected_eq_next_iff, @eq_comm State _ t, and_assoc]

theorem execRsmComplete_eq_next_iff (s t : State) :
    execRsmComplete s = .next t ↔
      (s.phase = .reassembling ∧ s.complete = true) ∧ t = { s with phase := .verifying } := by
  simp [execRsmComplete, whenSelected_eq_next_iff, @eq_comm State _ t]

theorem execVerPass_eq_next_iff (s t : State) :
    execVerPass s = .next t ↔
      (s.phase = .verifying ∧ s.checksumOk = true) ∧ t = { s with phase := .dispatching } := by
  unfold execVerPass State.checksumOk
  rw [whenSelected_eq_next_iff]
  cases s.payload <;> simp [whenSelected_eq_next_iff, @eq_comm State _ t, and_assoc]

theorem execVerFail_eq_next_iff (s t : State) :
    execVerFail s = .next t ↔
      s.phase = .verifying ∧ ∃ p, s.payload = some p ∧ verify p s.hdrChecksum = false ∧
        t = s.recover (.checksumMismatch s.hdrChecksum.toInt (checksumOf p) s.lengthVal) := by
  unfold execVerFail
  rw [whenSelected_eq_next_iff]
  cases s.payload <;> simp [whenSelected_eq_next_iff, @eq_comm State _ t]

theorem execEngDispatch_eq_next_iff (s t : State) :
    execEngDispatch s = .next t ↔
      s.phase = .dispatching ∧ ∃ p, s.payload = some p ∧
        t = { (s.emit (.frame p)).endAttempt with pending := some p, phase := .awaitHeader } := by
  unfold execEngDispatch
  rw [whenSelected_eq_next_iff]
  cases s.payload <;> simp [@eq_comm State _ t]

theorem execEngFatal_eq_next_iff (s t : State) :
    execEngFatal s = .next t ↔ s.phase ≠ .terminal ∧ t = s.halt .socketFatal .socketFatal := by
  simp [execEngFatal, whenSelected_eq_next_iff, @eq_comm State _ t]

theorem execEngShutdown_eq_next_iff (s t : State) :
    execEngShutdown s = .next t ↔ s.phase ≠ .terminal ∧ t = s.halt .shutdown .shutdown := by
  simp [execEngShutdown, whenSelected_eq_next_iff, @eq_comm State _ t]

theorem execEngHalted_eq_next_iff (e : Event) (s t : State) :
    execEngHalted e s = .next t ↔ (s.phase = .terminal ∧ e ≠ .reset ∧ e ≠ .take) ∧ t = s := by
  simp [execEngHalted, whenSelected_eq_next_iff, @eq_comm State _ t, and_assoc]

theorem execEngReset_eq_next_iff (s t : State) : execEngReset s = .next t ↔ t = s.resetBlock := by
  simp [execEngReset, @eq_comm State _ t]

theorem execSinkTake_eq_next_iff (s t : State) :
    execSinkTake s = .next t ↔
      ∃ p, s.pending = some p ∧ t = { s with pending := none, taken := s.taken ++ [p] } := by
  unfold execSinkTake
  cases s.pending <;> simp [@eq_comm State _ t]

end Sys2Proof.Machine
end

