-- ==== Sys2Proof/Laws/PerInstr.lean ====
section
/-! SUPPORT. Statements made per instruction. `SelectorMatchesTable`: the selector byte an operation is encoded with has
the `match` bits of its row of spec/opcode_table.json under the row's `mask` (30_encoding.md R91). -/

namespace Sys2Proof.Laws.SelectorMatchesTable

/-- The `mask` of the operation's row. -/
def rowMask : Instr → Byte
  | .engReset _ => 0x07#8
  | .engHalted _ => 0x38#8
  | .engFatal _ => 0x07#8
  | .engShutdown _ => 0x07#8
  | .hdrShort _ => 0x3F#8
  | .hdrBadmagic _ => 0x3F#8
  | .rsmReject _ => 0x3F#8
  | .rsmStart _ => 0x3F#8
  | .hdrReaderr => 0x3F#8
  | .hdrIdle => 0x3F#8
  | .rsmAppend _ => 0x3F#8
  | .rsmAbort => 0x3F#8
  | .rsmTimeout => 0x3F#8
  | .rsmComplete => 0x3F#8
  | .verPass => 0x3F#8
  | .verFail => 0x3F#8
  | .engDispatch => 0x3F#8
  | .sinkTake _ => 0x07#8

/-- The `match` of the operation's row. -/
def rowMatch : Instr → Byte
  | .engReset _ => 0x06#8
  | .engHalted _ => 0x20#8
  | .engFatal _ => 0x04#8
  | .engShutdown _ => 0x05#8
  | .hdrShort _ => 0x01#8
  | .hdrBadmagic _ => 0x01#8
  | .rsmReject _ => 0x01#8
  | .rsmStart _ => 0x01#8
  | .hdrReaderr => 0x02#8
  | .hdrIdle => 0x03#8
  | .rsmAppend _ => 0x09#8
  | .rsmAbort => 0x0A#8
  | .rsmTimeout => 0x0B#8
  | .rsmComplete => 0x08#8
  | .verPass => 0x10#8
  | .verFail => 0x10#8
  | .engDispatch => 0x18#8
  | .sinkTake _ => 0x07#8

/-- The encoded selector byte matches the operation's row. -/
def Statement (i : Instr) : Prop := ∃ sel b, encode i = sel :: b ∧ sel &&& rowMask i = rowMatch i

/-- Under the mask 0x07 only the event's bits count. -/
theorem low_bits : ∀ a b : BitVec 3, (0#2 ++ a ++ b) &&& 0x07#8 = 0#5 ++ b := by
  decide

/-- Under the mask 0x38 only the phase's bits count. -/
theorem high_bits : ∀ a b : BitVec 3, (0#2 ++ a ++ b) &&& 0x38#8 = 0#2 ++ a ++ 0#3 := by
  decide

/-- Under the mask 0x3F the whole selector counts. -/
theorem all_bits : ∀ a b : BitVec 3, (0#2 ++ a ++ b) &&& 0x3F#8 = 0#2 ++ a ++ b := by
  decide

theorem of_low {i : Instr} (c : BitVec 3) (m : Byte) (hm : rowMask i = 0x07#8) (hr : rowMatch i = m)
    (hc : i.selection.2.code = c) (h : 0#5 ++ c = m) : Statement i :=
  ⟨_, _, rfl, by rw [hm, hr, ← h, ← hc]; exact low_bits _ _⟩

theorem of_high {i : Instr} (c : BitVec 3) (m : Byte) (hm : rowMask i = 0x38#8) (hr : rowMatch i = m)
    (hc : i.selection.1.code = c) (h : 0#2 ++ c ++ 0#3 = m) : Statement i :=
  ⟨_, _, rfl, by rw [hm, hr, ← h, ← hc]; exact high_bits _ _⟩

theorem of_all {i : Instr} (c d : BitVec 3) (m : Byte) (hm : rowMask i = 0x3F#8) (hr : rowMatch i = m)
    (hc : i.selection.1.code = c) (hd : i.selection.2.code = d) (h : 0#2 ++ c ++ d = m) : Statement i :=
  ⟨_, _, rfl, by rw [hm, hr, ← h, ← hc, ← hd]; exact all_bits _ _⟩

theorem engReset (p : Phase) : Statement (.engReset p) := of_low 6#3 0x06#8 rfl rfl rfl (by decide)
theorem engHalted (e : Event) : Statement (.engHalted e) := of_high 4#3 0x20#8 rfl rfl rfl (by decide)
theorem engFatal (p : Phase) : Statement (.engFatal p) := of_low 4#3 0x04#8 rfl rfl rfl (by decide)
theorem engShutdown (p : Phase) : Statement (.engShutdown p) := of_low 5#3 0x05#8 rfl rfl rfl (by decide)
theorem hdrShort (b : Bytes) : Statement (.hdrShort b) := of_all 0#3 1#3 0x01#8 rfl rfl rfl rfl (by decide)
theorem hdrBadmagic (h : FrameHeader) : Statement (.hdrBadmagic h) := of_all 0#3 1#3 0x01#8 rfl rfl rfl rfl (by decide)
theorem rsmReject (h : FrameHeader) : Statement (.rsmReject h) := of_all 0#3 1#3 0x01#8 rfl rfl rfl rfl (by decide)
theorem rsmStart (h : FrameHeader) : Statement (.rsmStart h) := of_all 0#3 1#3 0x01#8 rfl rfl rfl rfl (by decide)
theorem hdrReaderr : Statement .hdrReaderr := of_all 0#3 2#3 0x02#8 rfl rfl rfl rfl (by decide)
theorem hdrIdle : Statement .hdrIdle := of_all 0#3 3#3 0x03#8 rfl rfl rfl rfl (by decide)
theorem rsmAppend (b : Bytes) : Statement (.rsmAppend b) := of_all 1#3 1#3 0x09#8 rfl rfl rfl rfl (by decide)
theorem rsmAbort : Statement .rsmAbort := of_all 1#3 2#3 0x0A#8 rfl rfl rfl rfl (by decide)
theorem rsmTimeout : Statement .rsmTimeout := of_all 1#3 3#3 0x0B#8 rfl rfl rfl rfl (by decide)
theorem rsmComplete : Statement .rsmComplete := of_all 1#3 0#3 0x08#8 rfl rfl rfl rfl (by decide)
theorem verPass : Statement .verPass := of_all 2#3 0#3 0x10#8 rfl rfl rfl rfl (by decide)
theorem verFail : Statement .verFail := of_all 2#3 0#3 0x10#8 rfl rfl rfl rfl (by decide)
theorem engDispatch : Statement .engDispatch := of_all 3#3 0#3 0x18#8 rfl rfl rfl rfl (by decide)
theorem sinkTake (p : Phase) : Statement (.sinkTake p) := of_low 7#3 0x07#8 rfl rfl rfl (by decide)

end Sys2Proof.Laws.SelectorMatchesTable
end

