-- ==== Sys2Proof/Laws/Safety.lean ====
section
/-! SUPPORT. The small lemmas of the terms claims are stated in. -/

namespace Sys2Proof.Machine

@[simp] theorem State.added_rxData (s : State) (b : Bytes) : s.added (.rxData b) = s.chunk b := rfl

/-- Only a datagram adds bytes. -/
theorem State.added_eq_nil (s : State) {e : Event} (h : ∀ b, e ≠ .rxData b) : s.added e = [] := by
  cases e with
  | rxData b => exact absurd rfl (h b)
  | _ => rfl

/-- The received bytes, when they can be read: `received` of them, each the buffer's. -/
theorem State.collected_eq_some_iff (s : State) (p : Bytes) :
    s.collected = some p ↔ p.length = s.received.toNat ∧ ∀ i, i < s.received.toNat → s.buf.readByte i = p[i]? := by
  simp [State.collected, memRead_eq_some_iff]

/-- With the invariant, the received bytes of a frame attempt can be read. -/
theorem State.Inv.exists_collected {s : State} (h : s.Inv) (hl : s.live = true) : ∃ p, s.collected = some p := by
  unfold State.collected memRead
  rw [if_pos (by omega)]
  exact Memory.readBytes_isSome_of_offsets _ _ (h.written hl) _ _ (by omega)

/-- Using up a trace item keeps the invariant. -/
theorem State.Inv.consume {s : State} (h : s.Inv) : s.consume.Inv := by
  unfold State.consume
  split
  · exact ⟨h.halted_iff, h.idle_received, h.magic_good, h.received_le, h.length_le, h.full, h.verified, h.written,
      h.buf_wf, h.last_request, h.pending_le⟩
  · exact h

@[simp] theorem runSteps_zero (s : State) : runSteps 0 s = .next s := rfl

/-- A run whose first step answers a next state goes on from there. -/
theorem runSteps_succ {s t : State} {n : Nat} (h : step s = .next t) : runSteps (n + 1) s = runSteps n t := by
  simp [runSteps, h]

/-- Where a frame attempt is in progress, two states that agree there differ in the model's counter alone. -/
theorem LiveAgree.eq_of_live {s t : State} (h : LiveAgree s t) (hl : s.live = true) :
    t = { s with freeCount := t.freeCount } := by
  obtain ⟨h1, h2, h3, h4, h5, h6, h7, h8, h9⟩ := h
  obtain ⟨a, b, c, d, e⟩ := h9 hl
  cases s
  cases t
  simp_all

end Sys2Proof.Machine
end

