-- ==== Sys2Proof/Tests/Slice0.lean ====
section
/-! SUPPORT. The model's own tests. Expected values are from spec/95_test_vectors.md (V-numbers and programs) or worked
out by hand from the encoding of spec/30_encoding.md; the witnesses show that the statements' hypotheses can be met. -/

namespace Sys2Proof.Tests

open Sys2Proof Sys2Proof.Machine

/-! ## Helpers -/

/-- The payload `abc` (95, V47e). -/
def abc : Bytes := [0x61#8, 0x62#8, 0x63#8]

/-- Phase `p` with `len` declared, checksum `ck` declared, the bytes `b` received (95, sections 2.3 to 2.5); of the requests
before, the last one stands for all. -/
def live (p : Phase) (len ck : Int) (b : Bytes) : State :=
  { State.reset with
    phase := p
    hdrMagic := 0xFFFE40AE#32
    hdrLength := BitVec.ofInt 32 len
    hdrChecksum := BitVec.ofInt 32 ck
    received := BitVec.ofNat 31 b.length
    buf := Memory.writeBytes [] 0 b
    requests := if p = .reassembling then [min 32767 (len.toNat - b.length)] else [1] }

/-- The state with a receive timeout configured. -/
def timed (s : State) : State := { s with cfg := { s.cfg with receiveTimeout := some 0 } }

/-- The reset state of an instance with another `MAX_FRAME_SIZE`. -/
def sized (n : BitVec 31) : State := { State.reset with cfg := { Params.reference with maxFrameSize := n } }

/-- The state with a trace. -/
def fed (s : State) (is : List Input) : State := { s with inputs := is }

/-- The halted block. -/
def halted (c : TermCause) : State := { State.reset with phase := .terminal, termCause := c }

/-- Phase, count, mailbox and events of a next state. -/
def sees (r : Result) : Option (Phase × Nat × Option Bytes × List OutEvent) :=
  match r with
  | .next t => some (t.phase, t.received.toNat, t.pending, t.events)
  | _ => none

/-- The phase, `term_cause`, mailbox and request of a next state. -/
def halts (r : Result) : Option (Phase × TermCause × Option Bytes × Option Nat) :=
  match r with
  | .next t => some (t.phase, t.termCause, t.pending, t.request)
  | _ => none

/-- The header `HDR -114514, 10, 1234` (30_encoding.md R97). -/
def t6Header : Bytes :=
  [0xFF#8, 0xFE#8, 0x40#8, 0xAE#8, 0x00#8, 0x00#8, 0x00#8, 0x0A#8, 0x00#8, 0x00#8, 0x04#8, 0xD2#8]

/-! ## Well-formedness: the check refuses an ill-formed term of each kind -/

theorem test_wf_refuses_halted_reset : (Instr.engHalted .reset).wf = false := by decide
theorem test_wf_refuses_halted_take : (Instr.engHalted .take).wf = false := by decide
theorem test_wf_refuses_fatal_terminal : (Instr.engFatal .terminal).wf = false := by decide
theorem test_wf_refuses_shutdown_terminal : (Instr.engShutdown .terminal).wf = false := by decide
theorem test_wf_refuses_short_of_12 : (Instr.hdrShort t6Header).wf = false := by decide
theorem test_wf_refuses_badmagic_good : (Instr.hdrBadmagic (headerAt t6Header)).wf = false := by decide
theorem test_wf_refuses_reject_bad_magic : (Instr.rsmReject ⟨114514#32, 10#32, 0#32⟩).wf = false := by decide
theorem test_wf_refuses_start_bad_magic : (Instr.rsmStart ⟨114514#32, 10#32, 0#32⟩).wf = false := by decide

/-! ## Decoding: one word per operation, written out from 30_encoding.md R80, R81, R82 -/

-- 00 000 001, no bytes: phase 0, RX_DATA of the empty string.
theorem test_decode_hdrShort : decode State.reset.conditions [0x01#8] = .ok (.hdrShort []) := by decide
-- 00 000 001 and the header of V14.
theorem test_decode_hdrBadmagic :
    decode State.reset.conditions
      [0x01#8, 0x00#8, 0x01#8, 0xBF#8, 0x52#8, 0x00#8, 0x00#8, 0x00#8, 0x0A#8, 0x00#8, 0x00#8, 0x04#8, 0xD2#8] =
      .ok (.hdrBadmagic ⟨0x0001BF52#32, 10#32, 1234#32⟩) := by decide
-- 00 000 001 and the header of V21, MAX_FRAME_SIZE = 1000.
theorem test_decode_rsmReject :
    decode (sized 1000#31).conditions
      [0x01#8, 0xFF#8, 0xFE#8, 0x40#8, 0xAE#8, 0x00#8, 0x00#8, 0x03#8, 0xE9#8, 0x00#8, 0x00#8, 0x00#8, 0x00#8] =
      .ok (.rsmReject ⟨0xFFFE40AE#32, 1001#32, 0#32⟩) := by decide
-- 00 000 001 and the header of V25, with the payload byte attached.
theorem test_decode_rsmStart :
    decode State.reset.conditions
      [0x01#8, 0xFF#8, 0xFE#8, 0x40#8, 0xAE#8, 0x00#8, 0x00#8, 0x00#8, 0x01#8, 0x02#8, 0x53#8, 0xC1#8, 0xE7#8,
        0x61#8] =
      .ok (.rsmStart ⟨0xFFFE40AE#32, 1#32, 39043559#32⟩) := by decide
-- 00 000 010.
theorem test_decode_hdrReaderr : decode State.reset.conditions [0x02#8] = .ok .hdrReaderr := by decide
-- 00 000 011, a timeout configured.
theorem test_decode_hdrIdle : decode (timed State.reset).conditions [0x03#8] = .ok .hdrIdle := by decide
-- 00 001 001 and two bytes.
theorem test_decode_rsmAppend :
    decode (live .reassembling 10 0 abc).conditions [0x09#8, 0xAA#8, 0xBB#8] = .ok (.rsmAppend [0xAA#8, 0xBB#8]) := by
  decide
-- 00 001 010.
theorem test_decode_rsmAbort : decode (live .reassembling 10 0 abc).conditions [0x0A#8] = .ok .rsmAbort := by decide
-- 00 001 011.
theorem test_decode_rsmTimeout :
    decode (timed (live .reassembling 10 0 abc)).conditions [0x0B#8] = .ok .rsmTimeout := by decide
-- 00 001 000.
theorem test_decode_rsmComplete :
    decode (live .reassembling 3 0 abc).conditions [0x08#8] = .ok .rsmComplete := by decide
-- 00 010 000, the checksum matching (V47e) and not.
theorem test_decode_verPass :
    decode (live .verifying 3 8915685 abc).conditions [0x10#8] = .ok .verPass := by decide +kernel
theorem test_decode_verFail :
    decode (live .verifying 3 8915686 abc).conditions [0x10#8] = .ok .verFail := by decide +kernel
-- 00 011 000.
theorem test_decode_engDispatch : decode State.reset.conditions [0x18#8] = .ok .engDispatch := by decide
-- 00 001 100, 00 010 101, 00 100 101, 00 011 110, 00 100 111.
theorem test_decode_engFatal : decode State.reset.conditions [0x0C#8] = .ok (.engFatal .reassembling) := by decide
theorem test_decode_engShutdown : decode State.reset.conditions [0x15#8] = .ok (.engShutdown .verifying) := by decide
theorem test_decode_engHalted : decode State.reset.conditions [0x25#8] = .ok (.engHalted .shutdown) := by decide
theorem test_decode_engReset : decode State.reset.conditions [0x1E#8] = .ok (.engReset .dispatching) := by decide
theorem test_decode_sinkTake :
    decode { State.reset with pending := some abc }.conditions [0x27#8] = .ok (.sinkTake .terminal) := by decide
-- A reserved phase, a reserved selector bit, bytes after an event that carries none, no word at all.
theorem test_decode_refuses :
    [decode State.reset.conditions [0x28#8], decode State.reset.conditions [0x41#8],
      decode State.reset.conditions [0x0A#8, 0x00#8], decode State.reset.conditions []] =
      [.error .reservedPhase, .error .reservedSelector, .error .surplusBytes, .error .noSelector] := by decide
theorem test_encode_rsmStart : encode (.rsmStart ⟨0xFFFE40AE#32, 10#32, 1234#32⟩) = 0x01#8 :: t6Header := by decide

/-! ## Pure functions -/

-- V5 to V10.
theorem test_s32be :
    [s32be [0x7F#8, 0xFF#8, 0xFF#8, 0xFF#8] 0, s32be [0x80#8, 0x00#8, 0x00#8, 0x00#8] 0,
      s32be [0xFF#8, 0xFF#8, 0xFF#8, 0xFF#8] 0, s32be [0xFF#8, 0xFE#8, 0x40#8, 0xAE#8] 0,
      s32be [0xAE#8, 0x40#8, 0xFE#8, 0xFF#8] 0, s32be [0x00#8, 0x01#8, 0xBF#8, 0x52#8] 0] =
      [2147483647, -2147483648, -1, -114514, -1371472129, 114514] := by decide
-- V29, V31 to V33, V35.
theorem test_want :
    [(1, 0), (32768, 0), (32768, 32767), (70000, 65534), (2147483647, 2147483646)].map
      (fun c : Int × Nat => { live .reassembling c.1 0 [] with received := BitVec.ofNat 31 c.2 }.want) =
      [1, 32767, 1, 4466, 1] := by decide
-- V48c to V48j.
theorem test_divide :
    [100#32, 123499#32, 123500#32, 0x7FFFFFFF#32, 0x80000000#32, 4294967199#32, 0xFFFFFFFF#32].map divideCrc =
      [1, 1234, 1235, 21474836, 21474836, 42949671, 42949672] := by decide
-- V47b.
theorem test_crc_check :
    crc32 [0x31#8, 0x32#8, 0x33#8, 0x34#8, 0x35#8, 0x36#8, 0x37#8, 0x38#8, 0x39#8] = 0xCBF43926#32 := by
  decide +kernel
-- V47j.
theorem test_crc_frame :
    crc32 [0x46#8, 0x52#8, 0x41#8, 0x4D#8, 0x45#8, 0x21#8, 0x1D#8, 0x54#8, 0xAB#8, 0xB0#8] = 123456#32 := by
  decide +kernel
-- Section 2.4: T[2], T[8], T[128].
theorem test_crc_table :
    [crcTable 2#8, crcTable 8#8, crcTable 128#8] = [0xEE0E612C#32, 0x0EDB8832#32, 0xEDB88320#32] := by
  decide +kernel

/-! ## One step each -/

-- V13.
theorem test_step_hdrShort :
    sees (step (fed State.reset [dataItem (t6Header.take 11)])) =
      some (.awaitHeader, 0, none, [.malformedHeader .shortRead]) := by decide
-- V14.
theorem test_step_hdrBadmagic :
    sees (step (fed State.reset [hdrItem 114514 10 1234])) =
      some (.awaitHeader, 0, none, [.malformedHeader .badMagic]) := by decide
-- V19 and V24.
theorem test_step_rsmReject_negative :
    sees (step (fed State.reset [hdrItem (-114514) (-2147483648) 0])) =
      some (.awaitHeader, 0, none, [.malformedHeader .lengthOutOfBounds]) := by decide
theorem test_step_rsmReject_over :
    sees (step (fed (sized 0#31) [hdrItem (-114514) 1 0])) =
      some (.awaitHeader, 0, none, [.malformedHeader .lengthOutOfBounds]) := by decide
-- V22 and V26.
theorem test_step_rsmStart :
    halts (step (fed (sized 1000#31) [hdrItem (-114514) 1000 0])) = some (.reassembling, .none, none, some 1000) := by
  decide
theorem test_step_rsmStart_checksum :
    (match step (fed State.reset [hdrItem (-114514) 10 (-1)]) with
      | .next t => some (t.dataReg 0, t.dataReg 1, t.dataReg 2, t.dataReg 3)
      | _ => none) = some (-114514, 10, -1, 0) := by decide
-- V27, V28.
theorem test_step_hdrReaderr :
    sees (step (fed State.reset [errItem])) = some (.awaitHeader, 0, none, [.malformedHeader .readError]) := by decide
theorem test_step_hdrIdle : step (fed (timed State.reset) [tmoItem]) = .next (timed State.reset) := by rfl
-- V41 and V43: a short chunk, and one longer than the request.
theorem test_step_rsmAppend_short :
    (match step (fed (live .reassembling 10 0 (abc ++ [0x64#8])) [dataItem [0xAA#8, 0xBB#8]]) with
      | .next t => some (t.received.toNat, t.request, t.buf.map Prod.snd)
      | _ => none) =
      some (6, some 4, [0x61#8, 0x62#8, 0x63#8, 0x64#8, 0xAA#8, 0xBB#8]) := by decide
theorem test_step_rsmAppend_long :
    (match step (fed (live .reassembling 4 0 abc) [dataItem [0xA1#8, 0xA2#8, 0xA3#8]]) with
      | .next t => some (t.received.toNat, t.request, t.buf)
      | _ => none) =
      some (4, none, [(0, 0x61#8), (1, 0x62#8), (2, 0x63#8), (3, 0xA1#8)]) := by decide
-- V38, V39.
theorem test_step_rsmAbort :
    sees (step (fed (live .reassembling 10 0 abc) [errItem])) =
      some (.awaitHeader, 0, none, [.reassemblyFailure .receiveError 3 10]) := by decide
theorem test_step_rsmTimeout :
    sees (step (fed (timed (live .reassembling 10 0 abc)) [tmoItem])) =
      some (.awaitHeader, 0, none, [.reassemblyFailure .timeout 3 10]) := by decide
-- V46.
theorem test_step_rsmComplete :
    sees (step (live .reassembling 0 0 [])) = some (.verifying, 0, none, []) := by decide
-- V57, V58, P3 items 6 and 7.
theorem test_step_verPass : sees (step (live .verifying 3 8915685 abc)) = some (.dispatching, 3, none, []) := by
  decide +kernel
theorem test_step_verFail :
    sees (step (live .verifying 3 8915686 abc)) =
      some (.awaitHeader, 0, none, [.checksumMismatch 8915686 8915685 3]) := by decide +kernel
theorem test_step_verFail_empty :
    sees (step (live .verifying 0 1 [])) = some (.awaitHeader, 0, none, [.checksumMismatch 1 0 0]) := by decide +kernel
-- V61 (overwrite) and V62 (the empty payload).
theorem test_step_engDispatch :
    sees (step { live .dispatching 1 39043559 [0x61#8] with pending := some abc }) =
      some (.awaitHeader, 0, some [0x61#8], [.frame [0x61#8]]) := by decide
theorem test_step_engDispatch_empty :
    sees (step (live .dispatching 0 0 [])) = some (.awaitHeader, 0, some [], [.frame []]) := by decide
-- V64, V65.
theorem test_step_engFatal :
    halts (step (fed (live .reassembling 10 0 abc) [fatalItem])) = some (.terminal, .socketFatal, none, none) := by
  decide
theorem test_step_engShutdown :
    sees (step (fed (live .dispatching 1 0 [0x61#8]) [bang shutdownItem])) =
      some (.terminal, 0, none, [.shutdown]) := by decide
-- V68, and P3 item 10: an answer fed to the halted block.
theorem test_step_engHalted :
    step (fed (halted .socketFatal) [shutdownItem]) = .next (halted .socketFatal) := by rfl
theorem test_step_engHalted_answer :
    step (fed (halted .shutdown) [hdrItem (-114514) 0 0]) = .next (halted .shutdown) := by rfl
-- V70.
theorem test_step_sinkTake :
    halts (step (fed { halted .shutdown with pending := some [0x61#8] } [takeItem])) =
      some (.terminal, .shutdown, none, none) := by decide
-- V72, V73.
theorem test_step_engReset_terminal :
    halts (step (fed { halted .socketFatal with pending := some [0x61#8] } [resetItem])) =
      some (.awaitHeader, .none, none, some 12) := by decide
theorem test_step_engReset_attempt :
    sees (step (fed (live .reassembling 10 0 abc) [resetItem])) = some (.awaitHeader, 0, none, []) := by decide
-- V71: "not enabled"; and a blocked engine with no event (30_encoding.md R81, "no step").
theorem test_step_take_nothing : step (fed State.reset [takeItem]) = .refused .noStep := by rfl
theorem test_step_blocked : step State.reset = .refused .noStep := by rfl
-- P4: the request for 32767 bytes is made a second time; an `RSM.START` asks for the whole of a short payload (V22); a
-- rejected header asks for the next one.
theorem test_requests_append :
    (match step (fed { live .reassembling 70000 0 [] with received := 32766#31 } [dataItem [0xAA#8]]) with
      | .next t => some (t.received.toNat, t.requests)
      | _ => none) = some (32767, [32767, 32767]) := by decide
theorem test_requests_start :
    (match step (fed (sized 1000#31) [hdrItem (-114514) 1000 0]) with | .next t => some t.requests | _ => none) =
      some [12, 1000] := by decide
theorem test_frameRequests : frameRequests 70000 [32767, 32767, 4466] = [32767, 32767, 4466] := by decide
theorem test_requests_short :
    (match step (fed State.reset [dataItem []]) with | .next t => some t.requests | _ => none) = some [12, 12] := by
  decide
-- 60_exceptions.md R245: an answer without a request.
theorem test_step_refuses_answer :
    step (fed (live .verifying 0 0 []) [bang errItem]) = .refused .answerWithoutRequest := by rfl
theorem test_step_refuses_timeout : step (fed State.reset [tmoItem]) = .refused .timeoutNotConfigured := by rfl
-- A table word placed where the step fetches: 0x0A is `RSM.ABORT`.
theorem test_withFetchWord :
    sees (step (State.reset.withFetchWord 8 0x0A)) =
      some (.awaitHeader, 0, none, [.reassemblyFailure .receiveError 0 1]) := by decide
theorem test_decodeTableWord :
    [decodeTableWord 8 0x0A, decodeTableWord 8 0x18, decodeTableWord 8 0x05, decodeTableWord 8 0x28] =
      [some .rsmAbort, some .engDispatch, some (.engShutdown .awaitHeader), none] := by decide

/-! ## Witnesses: states and operands that meet the hypotheses of the statements -/

theorem witness_StepRunsTheDecodedOperation :
    decode (fed State.reset [errItem]).conditions (fed State.reset [errItem]).fetchWord = .ok .hdrReaderr := by decide

theorem witness_FetchFollowsTheTrace :
    (live .verifying 0 0 []).inputs = [] ∧
    (fed (live .verifying 0 0 []) [bang shutdownItem]).inputs = ⟨true, .shutdown⟩ :: [] ∧
    (fed State.reset [errItem]).inputs = ⟨false, .rxError⟩ :: [] ∧ (fed State.reset [errItem]).tauEnabled = false ∧
    (fed (live .verifying 0 0 []) [shutdownItem]).inputs = ⟨false, .shutdown⟩ :: [] ∧
    (fed (live .verifying 0 0 []) [shutdownItem]).tauEnabled = true := by decide

theorem witness_DecodeOfEncode :
    (Instr.rsmStart (headerAt t6Header)).wf = true ∧
    (Instr.rsmStart (headerAt t6Header)).admittedBy State.reset.conditions = true := by decide

theorem witness_EncodeOfDecode :
    decode State.reset.conditions (0x01#8 :: t6Header ++ abc) = .ok (.rsmStart (headerAt t6Header)) := by decide

theorem witness_SelectionIsTheTable :
    eventCanOccur State.reset.conditions .awaitHeader .rxError ∧
    eventCanOccur (live .reassembling 3 0 abc).conditions .reassembling .tau ∧
    eventCanOccur (timed (live .reassembling 4 0 abc)).conditions .reassembling .rxTimeout ∧
    eventCanOccur { State.reset with pending := some abc }.conditions .terminal .take := by
  refine ⟨?_, ?_, ?_, ?_⟩
  all_goals
    unfold eventCanOccur
    refine ⟨?_, ?_, ?_, ?_⟩ <;> decide

-- The empty string and eleven bytes.
theorem witness_HdrShortResult :
    State.reset.phase = .awaitHeader ∧ ([] : Bytes).length < 12 ∧ (t6Header.take 11).length < 12 := by decide

-- Twelve bytes, one off the sentinel (V16), and twelve zero bytes (V17).
theorem witness_HdrBadmagicResult :
    State.reset.phase = .awaitHeader ∧
    12 ≤ ([0xFF#8, 0xFE#8, 0x40#8, 0xAF#8] ++ List.replicate 8 0x00#8).length ∧
    s32be ([0xFF#8, 0xFE#8, 0x40#8, 0xAF#8] ++ List.replicate 8 0x00#8) 0 ≠ -114514 ∧
    12 ≤ (List.replicate 12 0x00#8).length ∧ s32be (List.replicate 12 0x00#8) 0 ≠ -114514 := by decide

theorem witness_HdrReaderrResult : State.reset.phase = .awaitHeader := by decide

theorem witness_HdrIdleResult :
    (timed State.reset).phase = .awaitHeader ∧ (timed State.reset).cfg.receiveTimeout.isSome = true := by decide

-- Length −1 (V18), and one over a maximum of 9.
theorem witness_RsmRejectResult :
    (sized 9#31).phase = .awaitHeader ∧ 12 ≤ t6Header.length ∧ s32be t6Header 0 = -114514 ∧
    ((sized 9#31).cfg.maxFrameSize.toNat : Int) < s32be t6Header 4 ∧
    s32be (t6Header.take 4 ++ List.replicate 8 0xFF#8) 0 = -114514 ∧
    s32be (t6Header.take 4 ++ List.replicate 8 0xFF#8) 4 < 0 := by decide

-- The largest length the instance takes, and length 0.
theorem witness_RsmStartResult :
    (sized 10#31).phase = .awaitHeader ∧ 12 ≤ t6Header.length ∧ s32be t6Header 0 = -114514 ∧ 0 ≤ s32be t6Header 4 ∧
    s32be t6Header 4 = (sized 10#31).cfg.maxFrameSize.toNat ∧
    s32be (t6Header.take 4 ++ List.replicate 8 0x00#8) 4 = 0 := by decide

-- One byte short of the length, which is the maximum.
theorem witness_RsmAppendResult :
    { live .reassembling 4 0 abc with cfg := (sized 4#31).cfg }.phase = .reassembling ∧
    ((live .reassembling 4 0 abc).received.toNat : Int) < (live .reassembling 4 0 abc).hdrLength.toInt ∧
    (live .reassembling 4 0 abc).hdrLength.toInt ≤ (sized 4#31).cfg.maxFrameSize.toNat := by decide

theorem witness_RsmAbortResult :
    (live .reassembling 4 0 abc).phase = .reassembling ∧
    ((live .reassembling 4 0 abc).received.toNat : Int) < (live .reassembling 4 0 abc).hdrLength.toInt := by decide

theorem witness_RsmTimeoutResult :
    (timed (live .reassembling 1 0 [])).phase = .reassembling ∧
    ((timed (live .reassembling 1 0 [])).received.toNat : Int) <
      (timed (live .reassembling 1 0 [])).hdrLength.toInt ∧
    (timed (live .reassembling 1 0 [])).cfg.receiveTimeout.isSome = true := by decide

theorem witness_RsmCompleteResult :
    (live .reassembling 3 0 abc).phase = .reassembling ∧
    ((live .reassembling 3 0 abc).received.toNat : Int) = (live .reassembling 3 0 abc).hdrLength.toInt := by decide

theorem witness_VerPassResult :
    (live .verifying 3 8915685 abc).phase = .verifying ∧ (live .verifying 3 8915685 abc).payload = some abc ∧
    (((crc32 abc).toNat / 100 : Nat) : Int) = (live .verifying 3 8915685 abc).hdrChecksum.toInt := by decide +kernel

theorem witness_VerFailResult :
    (live .verifying 3 8915686 abc).phase = .verifying ∧ (live .verifying 3 8915686 abc).payload = some abc ∧
    (((crc32 abc).toNat / 100 : Nat) : Int) ≠ (live .verifying 3 8915686 abc).hdrChecksum.toInt := by decide +kernel

theorem witness_EngDispatchResult :
    (live .dispatching 3 8915685 abc).phase = .dispatching ∧ (live .dispatching 3 8915685 abc).payload = some abc := by
  decide

theorem witness_EngFatalResult : (live .dispatching 3 8915685 abc).phase ≠ .terminal := by decide

theorem witness_EngShutdownResult : State.reset.phase ≠ .terminal := by decide

theorem witness_EngHaltedResult :
    (halted .shutdown).phase = .terminal ∧ Event.rxData abc ≠ .reset ∧ Event.rxData abc ≠ .take := by decide

theorem witness_SinkTakeResult : { halted .shutdown with pending := some [] }.pending = some [] := by decide

/-- The invariant of a state in phase 3 with a whole, verified payload. -/
theorem live_inv : (live .dispatching 3 8915685 abc).Inv := by
  constructor
  all_goals decide +kernel

theorem witness_StepKeepsTheInvariant :
    (live .dispatching 3 8915685 abc).Inv ∧ ∃ t, step (live .dispatching 3 8915685 abc) = .next t :=
  ⟨live_inv, _, rfl⟩

theorem witness_StepCompletesUnderContract :
    (live .dispatching 3 8915685 abc).Inv ∧ (live .dispatching 3 8915685 abc).contractKept = true ∧
    (live .dispatching 3 8915685 abc).eventEnabled = true ∧
    State.reset.Inv ∧ State.reset.contractKept = true ∧ State.reset.eventEnabled = false ∧
    (fed State.reset [tmoItem]).Inv ∧ (fed State.reset [tmoItem]).contractKept = false := by
  refine ⟨live_inv, by decide, by decide, ?_, by decide, by decide, ?_, by decide⟩
  all_goals constructor
  all_goals decide

theorem witness_StepKeepsBufferForm :
    (live .dispatching 3 8915685 abc).buf.wf = true ∧ ∃ t, step (live .dispatching 3 8915685 abc) = .next t :=
  ⟨by decide, _, rfl⟩

-- Two states of phase 0 with different dead registers, buffers and counters.
theorem witness_DeadRegistersNeverObserved :
    LiveAgree (fed State.reset [errItem])
      { fed State.reset [errItem] with
        hdrMagic := 7#32, hdrLength := 8#32, hdrChecksum := 9#32, received := 5#31, buf := [(0, 1#8)], freeCount := 6 } := by
  constructor <;> decide

-- An event that is no take, and a take that completes.
theorem witness_SinkDoesNotInfluenceEngine :
    (fed State.reset [errItem]).forgetSink =
      { fed State.reset [errItem] with pending := some abc, taken := [[0x61#8]] }.forgetSink ∧
    (fed State.reset [errItem]).nextEvent ≠ .take ∧
    { fed State.reset [takeItem] with pending := some abc }.nextEvent = .take ∧
    ∃ t, step { fed State.reset [takeItem] with pending := some abc } = .next t :=
  ⟨rfl, by decide, rfl, _, rfl⟩

theorem witness_StepKeepsSinkOrder :
    { fed State.reset [takeItem] with pending := some abc, events := [.frame [0x61#8], .frame abc] }.SinkOrder ∧
    ∃ t, step { fed State.reset [takeItem] with pending := some abc, events := [.frame [0x61#8], .frame abc] } =
      .next t := by
  refine ⟨?_, _, rfl⟩
  unfold State.SinkOrder
  decide

theorem witness_PhaseMovesAlongTheEdges : ∃ t, step (live .reassembling 0 0 []) = .next t := ⟨_, rfl⟩

theorem witness_OnlyResetLeavesTerminal :
    ∃ t, step (fed (halted .shutdown) [resetItem]) = .next t ∧ (halted .shutdown).phase = .terminal ∧
      t.phase ≠ .terminal ∧ (halted .shutdown).termCause ≠ .none ∧ t.termCause = .none :=
  ⟨_, rfl, by decide⟩

theorem witness_OneEventPerStep : ∃ t, step (fed State.reset [errItem]) = .next t := ⟨_, rfl⟩

theorem witness_OnlyVerifiedPayloadsDispatched :
    (live .dispatching 3 8915685 abc).Inv ∧ ∃ t, step (live .dispatching 3 8915685 abc) = .next t ∧
      t.events = (live .dispatching 3 8915685 abc).events ++ [.frame abc] :=
  ⟨live_inv, _, rfl, by decide⟩

-- One witness for each of the three codes.
theorem witness_RecoverableErrorsReturnToAwaitHeader :
    (∃ t, step (fed State.reset [errItem]) = .next t ∧ t.events = [] ++ [.malformedHeader .readError]) ∧
    (∃ t, step (fed (live .reassembling 4 0 abc) [errItem]) = .next t ∧
      t.events = [] ++ [.reassemblyFailure .receiveError 3 4]) ∧
    (∃ t, step (live .verifying 0 1 []) = .next t ∧ t.events = [] ++ [.checksumMismatch 1 0 0]) ∧
    (OutEvent.malformedHeader .readError).code = 1 ∧ (OutEvent.reassemblyFailure .receiveError 3 4).code = 2 ∧
    (OutEvent.checksumMismatch 1 0 0).code = 3 :=
  ⟨⟨_, rfl, by decide⟩, ⟨_, rfl, by decide⟩, ⟨_, rfl, by decide⟩, by decide, by decide, by decide⟩

theorem witness_ParametersNeverChange : ∃ t, step (fed (sized 0#31) [resetItem]) = .next t := ⟨_, rfl⟩

-- A dispatch, a take and a reset that change the mailbox.
theorem witness_MailboxWriters :
    (∃ t, step (live .dispatching 3 8915685 abc) = .next t ∧ t.pending ≠ none) ∧
    (∃ t, step (fed { State.reset with pending := some abc } [takeItem]) = .next t ∧ t.pending ≠ some abc) ∧
    (∃ t, step (fed { State.reset with pending := some abc } [resetItem]) = .next t ∧ t.pending ≠ some abc) :=
  ⟨⟨_, rfl, by decide⟩, ⟨_, rfl, by decide⟩, ⟨_, rfl, by decide⟩⟩

-- Phase 0; phase 1 one byte short and complete; a phase with no request.
theorem witness_RequestFunction :
    State.reset.phase = .awaitHeader ∧
    (live .reassembling 4 0 abc).phase = .reassembling ∧
    ((live .reassembling 4 0 abc).received.toNat : Int) < (live .reassembling 4 0 abc).hdrLength.toInt ∧
    (live .reassembling 3 0 abc).phase ≠ .awaitHeader ∧
    ¬ ((live .reassembling 3 0 abc).phase = .reassembling ∧
      ((live .reassembling 3 0 abc).received.toNat : Int) < (live .reassembling 3 0 abc).hdrLength.toInt) ∧
    (live .reassembling 4 0 abc).request = some 1 ∧
    (live .reassembling 40000 0 []).request = some 32767 := by decide

theorem witness_BlockedEngineWaits :
    State.reset.request.isSome = true ∧ State.reset.inputs = [] ∧
    select State.reset.conditions .awaitHeader .rxError = .ok .hdrReaderr := by decide

-- Each of the four defects alone, at a boundary; and a header with a bad magic and a negative length.
theorem witness_HeaderDefectPriority :
    (fed (sized 9#31) [dataItem t6Header]).phase = .awaitHeader ∧
    (fed (sized 9#31) [dataItem t6Header]).inputs = ⟨false, .rxData t6Header⟩ :: [] ∧
    ((fed (sized 9#31) [dataItem t6Header]).cfg.maxFrameSize.toNat : Int) < s32be t6Header 4 ∧
    (t6Header.take 11).length < 12 ∧
    s32be (t6Header.take 4 ++ List.replicate 8 0xFF#8) 4 < 0 ∧
    s32be (List.replicate 12 0xFF#8) 0 ≠ -114514 ∧ s32be (List.replicate 12 0xFF#8) 4 < 0 := by decide

-- An urgent answer in phase 2, an urgent and a plain timeout in phase 0.
theorem witness_ContractBreachesAreRefused :
    (live .verifying 0 0 []).phase ≠ .terminal ∧
    (fed (live .verifying 0 0 []) [bang errItem]).inputs = ⟨true, .rxError⟩ :: [] ∧
    Event.rxError.isAnswer = true ∧ (fed (live .verifying 0 0 []) [bang errItem]).request = none ∧
    (fed State.reset [bang tmoItem]).inputs = ⟨true, .rxTimeout⟩ :: [] ∧ Event.rxTimeout.isAnswer = true ∧
    (fed State.reset [bang tmoItem]).request.isSome = true ∧
    (fed State.reset [bang tmoItem]).cfg.receiveTimeout = none ∧
    (fed State.reset [tmoItem]).inputs = ⟨false, .rxTimeout⟩ :: [] ∧
    (fed State.reset [tmoItem]).tauEnabled = false := by decide

theorem witness_TakeWithNothingPending :
    (fed (live .verifying 0 0 []) [bang takeItem]).inputs = ⟨true, .take⟩ :: [] ∧
    (fed (live .verifying 0 0 []) [bang takeItem]).pending = none ∧
    (fed State.reset [takeItem]).inputs = ⟨false, .take⟩ :: [] ∧
    (fed State.reset [takeItem]).tauEnabled = false ∧ (fed State.reset [takeItem]).pending = none := by decide

theorem witness_ShutdownBeforeOrAfterDispatch :
    (fed (live .dispatching 1 39043559 [0x61#8]) [bang shutdownItem]).phase = .dispatching ∧
    (fed (live .dispatching 1 39043559 [0x61#8]) [bang shutdownItem]).payload = some [0x61#8] ∧
    (fed (live .dispatching 1 39043559 [0x61#8]) [bang shutdownItem]).inputs = ⟨true, .shutdown⟩ :: [] ∧
    (fed (live .dispatching 1 39043559 [0x61#8]) [shutdownItem]).payload = some [0x61#8] ∧
    (fed (live .dispatching 1 39043559 [0x61#8]) [shutdownItem]).inputs = ⟨false, .shutdown⟩ :: [] := by decide

theorem witness_ParseHeaderContract :
    t6Header.length = 12 ∧ s32be t6Header 0 = -114514 ∧
    (List.replicate 12 0x00#8).length = 12 ∧ s32be (List.replicate 12 0x00#8) 0 ≠ -114514 := by decide

theorem witness_FieldAssembly : 8 + 4 ≤ t6Header.length := by decide

-- The two values just outside the range.
theorem witness_ChecksumRange : (-1#32 : Word32).toInt < 0 ∧ (42949672 : Int) < (42949673#32 : Word32).toInt := by
  decide

-- A write of the last byte of the received range and capacity, and one just past the capacity.
theorem witness_MemWriteThenMemRead :
    2 + [0x7A#8].length ≤ { live .reassembling 4 0 abc with cfg := (sized 3#31).cfg }.cfg.maxFrameSize.toNat ∧
    2 + [0x7A#8].length ≤ { live .reassembling 4 0 abc with cfg := (sized 3#31).cfg }.received.toNat ∧
    (sized 3#31).cfg.maxFrameSize.toNat < 3 + [0x7A#8].length := by decide

theorem witness_ReassemblyCollectsThePayload :
    (live .reassembling 3 0 []).phase = .reassembling ∧ (live .reassembling 3 0 []).received = 0#31 ∧
    (live .reassembling 3 0 []).hdrLength.toInt = ([[0x61#8, 0x62#8], [], [0x63#8]] : List Bytes).flatten.length ∧
    (live .reassembling 3 0 []).hdrLength.toInt ≤ (live .reassembling 3 0 []).cfg.maxFrameSize.toNat ∧
    (∀ b ∈ ([[0x61#8, 0x62#8], [], [0x63#8]] : List Bytes), b.length ≤ 32767) ∧
    ([[0x61#8, 0x62#8], [], [0x63#8]] : List Bytes).getLast? ≠ some [] := by decide

theorem witness_ChunkingInvariance :
    (live .reassembling 3 0 []).phase = .reassembling ∧ (live .reassembling 3 0 []).received = 0#31 ∧
    ([[0x61#8, 0x62#8], [0x63#8]] : List Bytes).flatten = ([abc] : List Bytes).flatten ∧
    (live .reassembling 3 0 []).hdrLength.toInt = ([[0x61#8, 0x62#8], [0x63#8]] : List Bytes).flatten.length ∧
    (live .reassembling 3 0 []).hdrLength.toInt ≤ (live .reassembling 3 0 []).cfg.maxFrameSize.toNat ∧
    (∀ b ∈ ([[0x61#8, 0x62#8], [0x63#8]] : List Bytes), b.length ≤ 32767) ∧
    (∀ b ∈ ([abc] : List Bytes), b.length ≤ 32767) ∧
    ([[0x61#8, 0x62#8], [0x63#8]] : List Bytes).getLast? ≠ some [] ∧ ([abc] : List Bytes).getLast? ≠ some [] := by
  decide

theorem witness_ConformingFrameIsDelivered :
    (fed State.reset (frameTrace abc [2, 1] ++ [takeItem])).phase = .awaitHeader ∧
    abc.length ≤ (fed State.reset (frameTrace abc [2, 1] ++ [takeItem])).cfg.maxFrameSize.toNat ∧
    (∀ n ∈ [2, 1], n ≤ 32767) ∧ [2, 1].sum = abc.length ∧ [2, 1].getLast? ≠ some 0 ∧
    (fed State.reset (frameTrace abc [2, 1] ++ [takeItem])).inputs = frameTrace abc [2, 1] ++ [takeItem] ∧
    (∀ i, [takeItem].head? = some i → i.urgent = false) :=
  ⟨rfl, by decide, by decide, rfl, by decide, rfl, by rintro i h; cases h; rfl⟩

/-- The invariant of a state in phase 1 that has met its first bytes and meets one more. -/
theorem live_append_inv : (fed (live .reassembling 4 0 abc) [dataItem [0x64#8]]).Inv := by
  constructor
  all_goals decide

-- A header that starts an attempt, and a chunk inside one.
theorem witness_BufferHoldsTheChunks :
    (fed State.reset [hdrItem (-114514) 3 0]).Inv ∧
    (∃ t, step (fed State.reset [hdrItem (-114514) 3 0]) = .next t ∧ t.live = true ∧
      (fed State.reset [hdrItem (-114514) 3 0]).live = false) ∧
    (fed (live .reassembling 4 0 abc) [dataItem [0x64#8]]).Inv ∧
    ∃ t, step (fed (live .reassembling 4 0 abc) [dataItem [0x64#8]]) = .next t ∧ t.live = true ∧
      (fed (live .reassembling 4 0 abc) [dataItem [0x64#8]]).live = true := by
  refine ⟨?_, ⟨_, rfl, by decide, by decide⟩, live_append_inv, ⟨_, rfl, by decide, by decide⟩⟩
  constructor
  all_goals decide

theorem witness_MailboxHoldsVerifiedPayload :
    (live .dispatching 3 8915685 abc).Inv ∧
    ∃ t, step (live .dispatching 3 8915685 abc) = .next t ∧ t.pending = some abc :=
  ⟨live_inv, _, rfl, by decide⟩

-- A take between the chunks, of the frame before.
theorem witness_FrameIsDeliveredAmongTakes :
    [hdrItem (-114514) 3 8915685, dataItem [0x61#8, 0x62#8], takeItem, dataItem [0x63#8]].filter (· != takeItem) =
      frameTrace abc [2, 1] ∧
    [hdrItem (-114514) 3 8915685, dataItem [0x61#8, 0x62#8], takeItem, dataItem [0x63#8]].getLast? ≠ some takeItem ∧
    [hdrItem (-114514) 3 8915685, dataItem [0x61#8, 0x62#8], takeItem, dataItem [0x63#8]].count takeItem ≤
      { State.reset with pending := some [0x61#8] }.pending.toList.length ∧
    State.reset.phase = .awaitHeader ∧ abc.length ≤ State.reset.cfg.maxFrameSize.toNat ∧
    (∀ n ∈ [2, 1], n ≤ 32767) ∧ [2, 1].sum = abc.length ∧ [2, 1].getLast? ≠ some 0 ∧
    (∀ i, [takeItem].head? = some i → i.urgent = false) :=
  ⟨by decide +kernel, by decide, by decide +kernel, rfl, by decide, by decide, rfl, by decide, by
    rintro i h; cases h; rfl⟩

-- A reset, a take, a timeout in phase 0 and an error, each with a next state.
theorem witness_StepExtendsTheRequestSequence :
    (∃ t, step (fed State.reset [resetItem]) = .next t ∧ (fed State.reset [resetItem]).nextEvent = .reset) ∧
    (∃ t, step (fed { State.reset with pending := some abc } [takeItem]) = .next t ∧
      (fed { State.reset with pending := some abc } [takeItem]).nextEvent = .take) ∧
    (∃ t, step (fed (timed State.reset) [tmoItem]) = .next t ∧
      (fed (timed State.reset) [tmoItem]).phase = .awaitHeader ∧
      (fed (timed State.reset) [tmoItem]).nextEvent = .rxTimeout) ∧
    (∃ t, step (fed State.reset [errItem]) = .next t ∧ (fed State.reset [errItem]).nextEvent = .rxError) :=
  ⟨⟨_, rfl, rfl⟩, ⟨_, rfl, rfl⟩, ⟨_, rfl, rfl, rfl⟩, ⟨_, rfl, rfl⟩⟩

end Sys2Proof.Tests
end

section
/-! PROOFS. The way out of the terminal phase, and the writers of `term_cause` (10_state.md R37). -/

namespace Sys2Proof.Machine

/-! ### The terminal phase -/

/-- The rows of R81 for phase 4 (43_engine_loop.md R196): a reset, a take, and `ENG.HALTED` for the rest. -/
theorem select_terminal_cases {k : Conditions} {e : Event} {i : Instr} (h : select k .terminal e = .ok i) :
    (e = .reset ∧ i = .engReset .terminal) ∨ (e = .take ∧ i = .sinkTake .terminal) ∨ i = .engHalted e := by
  cases e with
  | reset =>
    cases h
    exact .inl ⟨rfl, rfl⟩
  | take =>
    simp only [select] at h
    split at h
    · cases h
      exact .inr (.inl ⟨rfl, rfl⟩)
    · cases h
  | _ =>
    cases h
    exact .inr (.inr rfl)

/-- What a step of the halted block can do, but for a reset: use up its trace item, or let the Sink take a frame. -/
theorem step_terminal_cases {s t : State} (h : step s = .next t) (hs : s.phase = .terminal) :
    s.nextEvent = .reset ∨ t = s.consume ∨
      ∃ p, s.pending = some p ∧ t = { s.consume with pending := none, taken := s.taken ++ [p] } := by
  obtain ⟨i, u, hsel, hexec, rfl⟩ := step_next_cases h
  rw [hs] at hsel
  obtain ⟨hreset, -⟩ | ⟨-, rfl⟩ | rfl := select_terminal_cases hsel
  · exact .inl hreset
  · obtain ⟨p, hp, rfl⟩ := (execSinkTake_eq_next_iff _ _).1 hexec
    rw [State.consume_pending] at hp
    rw [noteRequest_of_not_makesRequest rfl, State.consume_taken]
    exact .inr (.inr ⟨p, hp, rfl⟩)
  · obtain ⟨-, rfl⟩ := (execEngHalted_eq_next_iff _ _ _).1 hexec
    exact .inr (.inl (noteRequest_of_not_makesRequest rfl _))

/-- Without a reset the terminal phase is kept. -/
theorem step_phase_of_terminal {s t : State} (h : step s = .next t) (hs : s.phase = .terminal) :
    s.nextEvent = .reset ∨ t.phase = .terminal := by
  obtain hreset | rfl | ⟨p, -, rfl⟩ := step_terminal_cases h hs
  · exact .inl hreset
  · exact .inr (by rw [State.consume_phase, hs])
  · exact .inr (s.consume_phase.trans hs)

/-! ### The cause of the halt -/

/-- The writers of `term_cause` (10_state.md R29): `ENG.RESET`, and the two halts, each with its cause. -/
theorem exec_termCause_cases {i : Instr} {s u : State} (h : exec i s = .next u) :
    (∃ p, i = .engReset p) ∨ u.termCause = s.termCause ∨ (u.phase = .terminal ∧ u.termCause ≠ .none) := by
  cases i
  case engReset p => exact .inl ⟨p, rfl⟩
  case engFatal | engShutdown =>
    simp only [exec, execEngFatal_eq_next_iff, execEngShutdown_eq_next_iff] at h
    exact .inr (.inr (by simp [h.2]))
  case hdrShort | hdrBadmagic | hdrReaderr | rsmReject | rsmAbort | rsmTimeout =>
    simp only [exec, execHdrShort_eq_next_iff, execHdrBadmagic_eq_next_iff, execHdrReaderr_eq_next_iff,
      execRsmReject_eq_next_iff, execRsmAbort_eq_next_iff, execRsmTimeout_eq_next_iff] at h
    exact .inr (.inl (by rw [h.2, State.recover_termCause]))
  case verFail =>
    obtain ⟨-, p, -, -, rfl⟩ := (execVerFail_eq_next_iff s u).1 h
    exact .inr (.inl (State.recover_termCause _ _))
  case engHalted | hdrIdle | rsmStart | rsmAppend | rsmComplete | verPass =>
    simp only [exec, execEngHalted_eq_next_iff, execHdrIdle_eq_next_iff, execRsmStart_eq_next_iff,
      execRsmAppend_eq_next_iff, execRsmComplete_eq_next_iff, execVerPass_eq_next_iff] at h
    exact .inr (.inl (by rw [h.2]))
  case engDispatch =>
    obtain ⟨-, p, -, rfl⟩ := (execEngDispatch_eq_next_iff s u).1 h
    exact .inr (.inl rfl)
  case sinkTake =>
    obtain ⟨p, -, rfl⟩ := (execSinkTake_eq_next_iff s u).1 h
    exact .inr (.inl rfl)

/-- Without a reset a step keeps `term_cause`, or halts and sets it. -/
theorem step_termCause_cases {s t : State} (h : step s = .next t) :
    s.nextEvent = .reset ∨ t.termCause = s.termCause ∨ (t.phase = .terminal ∧ t.termCause ≠ .none) := by
  obtain ⟨i, u, hsel, hexec, rfl⟩ := step_next_cases h
  obtain ⟨p, hi⟩ | hcause := exec_termCause_cases hexec
  · exact .inl ((event_of_select hsel).1 hi)
  · rw [State.consume_termCause] at hcause
    exact .inr hcause

/-- Settles O35: the rows of phase 4 leave only a reset as its way out, and no operation but a reset writes the cause
`none`. -/
theorem onlyResetLeavesTerminal : Obligations.OnlyResetLeavesTerminal := by
  intro s t h
  constructor
  · intro hs ht
    exact (step_phase_of_terminal h hs).resolve_right ht
  · intro hs ht
    obtain hreset | hkept | ⟨-, hset⟩ := step_termCause_cases h
    · exact hreset
    · exact absurd (hkept.symm.trans ht) hs
    · exact absurd ht hset

end Sys2Proof.Machine
end

section
/-! PROOFS. The header codec: the operations of phase 0 that start no frame attempt, and the header parser
(40_header_codec.md R110, R112 to R115). -/

namespace Sys2Proof.Machine

/-! ### What phase 0 selects -/

/-- In phase 0 a datagram selects the operation its classification names (60_exceptions.md R242). -/
theorem select_awaitHeader_rxData (k : Conditions) (b : Bytes) :
    select k .awaitHeader (.rxData b) = .ok (decodeHeader k b) := rfl

theorem decodeHeader_of_short (k : Conditions) {b : Bytes} (hb : b.length < 12) : decodeHeader k b = .hdrShort b := by
  rw [decodeHeader_eq, if_pos hb]

theorem decodeHeader_of_badMagic (k : Conditions) {b : Bytes} (hb : 12 ≤ b.length)
    (hm : (headerAt b).magicGood = false) : decodeHeader k b = .hdrBadmagic (headerAt b) := by
  rw [decodeHeader_eq, if_neg (Nat.not_lt.2 hb), hm, if_neg Bool.false_ne_true]

theorem select_awaitHeader_rxError (k : Conditions) : select k .awaitHeader .rxError = .ok .hdrReaderr := rfl

theorem select_awaitHeader_rxTimeout {k : Conditions} (hk : k.timeoutConfigured = true) :
    select k .awaitHeader .rxTimeout = .ok .hdrIdle :=
  if_pos hk

/-! ### The operations -/

/-- Settles O7: fewer than 12 bytes fail the first test of the classification, and the recovery in phase 0 writes only
the count and the event stream. -/
theorem hdrShortResult : Obligations.HdrShortResult := by
  intro s b hp hb
  constructor
  · rw [decode_wordOf, hp, select_awaitHeader_rxData, decodeHeader_of_short _ hb]
  · exact (execHdrShort_eq_next_iff b s _).2 ⟨⟨hp, hb⟩, (recover_awaitHeader s _ hp).symm⟩

/-- Settles O8: the sentinel test reads the first field alone, and the clamp does not touch it. -/
theorem hdrBadmagicResult : Obligations.HdrBadmagicResult := by
  intro s b hp hb hm
  have hbad : (headerAt b).magicGood = false := (headerAt_magicGood_false_iff b).2 hm
  constructor
  · rw [decode_wordOf, hp, select_awaitHeader_rxData, decodeHeader_of_badMagic _ hb hbad]
  · exact (execHdrBadmagic_eq_next_iff _ s _).2 ⟨⟨hp, hbad⟩, (recover_awaitHeader s _ hp).symm⟩

/-- Settles O9: the row of `RX_ERROR` has no condition in phase 0. -/
theorem hdrReaderrResult : Obligations.HdrReaderrResult := by
  intro s hp
  constructor
  · rw [decode_wordOf, hp, select_awaitHeader_rxError]
  · exact (execHdrReaderr_eq_next_iff s _).2 ⟨hp, (recover_awaitHeader s _ hp).symm⟩

/-- Settles O10: the row of `RX_TIMEOUT` asks for a configured timeout, which is the premise. -/
theorem hdrIdleResult : Obligations.HdrIdleResult := by
  intro s hp ht
  constructor
  · rw [decode_wordOf, hp, select_awaitHeader_rxTimeout ht]
  · exact (execHdrIdle_eq_next_iff s s).2 ⟨⟨hp, ht⟩, rfl⟩

/-! ### The parser -/

/-- Settles O47: the sentinel test on the first field decides between the two results. -/
theorem parseHeaderContract : Obligations.ParseHeaderContract := by
  intro h _
  constructor
  · intro hm
    exact parseHeader_of_bad ((headerAt_magicGood_false_iff h).2 hm)
  · intro hm
    have hparse : parseHeader h = .ok (headerAt h) := parseHeader_of_good ((headerAt_magicGood_iff h).2 hm)
    exact ⟨headerAt h, hparse, rfl, rfl, rfl⟩

end Sys2Proof.Machine
end

section
/-! PROOFS. The frame reassembler: how a frame attempt starts, the rows of phase 1, and what each operation changes
(41_reassembler.md R131 to R137). -/

namespace Sys2Proof.Machine

/-! ### The classification of a header with good magic -/

theorem lengthInBounds_false_iff (m : BitVec 31) (l : Word32) :
    lengthInBounds m l = false ↔ l.toInt < 0 ∨ (m.toNat : Int) < l.toInt := by
  rw [← Bool.not_eq_true, lengthInBounds_iff]
  omega

theorem decodeHeader_of_outOfBounds {k : Conditions} {b : Bytes} (hb : 12 ≤ b.length)
    (hm : (headerAt b).magicGood = true) (hl : lengthInBounds k.maxFrameSize (headerAt b).length = false) :
    decodeHeader k b = .rsmReject (headerAt b) := by
  rw [decodeHeader_eq, if_neg (Nat.not_lt.2 hb), if_pos hm, hl, if_neg Bool.false_ne_true]

theorem decodeHeader_of_inBounds {k : Conditions} {b : Bytes} (hb : 12 ≤ b.length)
    (hm : (headerAt b).magicGood = true) (hl : lengthInBounds k.maxFrameSize (headerAt b).length = true) :
    decodeHeader k b = .rsmStart (headerAt b) := by
  rw [decodeHeader_eq, if_neg (Nat.not_lt.2 hb), if_pos hm, if_pos hl]

/-! ### What phase 1 selects -/

theorem select_reassembling_rxData {k : Conditions} (b : Bytes) (hk : k.incomplete = true) :
    select k .reassembling (.rxData b) = .ok (.rsmAppend b) :=
  if_pos hk

theorem select_reassembling_rxError {k : Conditions} (hk : k.incomplete = true) :
    select k .reassembling .rxError = .ok .rsmAbort :=
  if_pos hk

theorem select_reassembling_rxTimeout {k : Conditions} (hk : k.incomplete = true) (ht : k.timeoutConfigured = true) :
    select k .reassembling .rxTimeout = .ok .rsmTimeout :=
  (if_pos hk).trans (if_pos ht)

theorem select_reassembling_tau {k : Conditions} (hk : k.complete = true) :
    select k .reassembling .tau = .ok .rsmComplete :=
  if_pos hk

/-! ### The chunk -/

/-- The size of a chunk: what was delivered, up to the request (41_reassembler.md R133; 44_collaborators.md R212). -/
theorem length_chunk (s : State) (b : Bytes) : (s.chunk b).length = min b.length s.want := by
  rw [State.chunk, length_clamp, Nat.min_comm]

/-- The clamp drops bytes from the end only. -/
theorem chunk_getElem?_of_lt (s : State) (b : Bytes) {i : Nat} (hi : i < (s.chunk b).length) :
    (s.chunk b)[i]? = b[i]? := by
  have hw : i < s.want := Nat.lt_of_lt_of_le hi (length_chunk_le s b)
  rw [State.chunk, clamp_eq_take, List.getElem?_take_of_lt hw]

/-- A chunk stored at `received` ends at or before `hdr_length`, so the count never passes it (41_reassembler.md R133). -/
theorem received_add_length_chunk_le (s : State) (b : Bytes) (hi : s.incomplete = true) :
    ((s.received.toNat + (s.chunk b).length : Nat) : Int) ≤ s.lengthVal := by
  have hlt : (s.received.toNat : Int) < s.lengthVal := (incomplete_iff s).1 hi
  have hle : (s.chunk b).length ≤ (s.lengthVal - s.received.toNat).toNat :=
    Nat.le_trans (length_chunk_le s b) (want_le_remaining s)
  omega

/-- The sum of `RSM.APPEND` fits the 31 bits of `received` (10_state.md R25). -/
theorem toNat_received_append {s : State} {b : Bytes}
    (h : s.received.toNat + (s.chunk b).length ≤ s.cfg.maxFrameSize.toNat) :
    (BitVec.ofNat 31 (s.received.toNat + (s.chunk b).length)).toNat = s.received.toNat + (s.chunk b).length := by
  rw [BitVec.toNat_ofNat]
  exact Nat.mod_eq_of_lt (Nat.lt_of_le_of_lt h s.cfg.maxFrameSize.isLt)

/-! ### The request of a complete frame -/

/-- In phase 1 a complete frame has no request outstanding (43_engine_loop.md R181). -/
theorem request_eq_none_of_complete {s : State} (hp : s.phase = .reassembling) (hc : s.complete = true) :
    s.request = none := by
  have hinc : ¬ s.incomplete = true := by
    rw [incomplete_iff, (complete_iff s).1 hc]
    exact lt_irrefl _
  simp [State.request, hp, hinc]

/-! ### The discarded attempt -/

/-- What a recoverable error does, with the dead parts left open (60_exceptions.md R239; 10_state.md R27). -/
theorem recover_eq_deadFrom (s : State) (e : OutEvent) :
    s.recover e =
      State.deadFrom { s with phase := .awaitHeader, received := 0#31, events := s.events ++ [e] } (s.recover e) :=
  recover_eq s e

/-! ### The operations -/

/-- Settles O13: an append inside `hdr_length` stays inside the buffer and inside the 31 bits of the count; each byte of
the buffer is then read by the law of a multi-byte write. -/
theorem rsmAppendResult : Obligations.RsmAppendResult := by
  intro s b hp hlt hmax
  have hinc : s.incomplete = true := (incomplete_iff s).2 hlt
  have hfits : s.received.toNat + (s.chunk b).length ≤ s.cfg.maxFrameSize.toNat :=
    Int.ofNat_le.1 (Int.le_trans (received_add_length_chunk_le s b hinc) hmax)
  refine ⟨?_, _, (s.chunk b).length, (execRsmAppend_eq_next_iff b s _).2 ⟨⟨hp, hinc, hfits⟩, rfl⟩,
    length_chunk s b, rfl, toNat_received_append hfits, ?_, ?_⟩
  · rw [decode_wordOf, hp, select_reassembling_rxData b hinc]
  · intro i hi
    rw [Memory.readByte_writeBytes, if_pos ⟨Nat.le_add_right _ _, Nat.add_lt_add_left hi _⟩,
      Nat.add_sub_cancel_left, chunk_getElem?_of_lt s b hi]
  · intro a ha
    rw [Memory.readByte_writeBytes, if_neg (by omega)]

/-- Settles O11: both ways out of bounds fail the one test of the length, and the recovery in phase 0 writes only the
count and the event stream. -/
theorem rsmRejectResult : Obligations.RsmRejectResult := by
  intro s b hp hb hm hl
  have hgood : (headerAt b).magicGood = true := (headerAt_magicGood_iff b).2 hm
  have hout : lengthInBounds s.cfg.maxFrameSize (headerAt b).length = false := (lengthInBounds_false_iff _ _).2 hl
  constructor
  · rw [decode_wordOf, hp, select_awaitHeader_rxData, decodeHeader_of_outOfBounds hb hgood hout]
  · exact (execRsmReject_eq_next_iff _ s _).2 ⟨⟨hp, hgood, hout⟩, (recover_awaitHeader s _ hp).symm⟩

/-- Settles O12: the registers take the fields of the decoded header, whose values are the datagram's three fields. -/
theorem rsmStartResult : Obligations.RsmStartResult := by
  intro s b hp hb hm h0 hmax
  have hgood : (headerAt b).magicGood = true := (headerAt_magicGood_iff b).2 hm
  have hin : lengthInBounds s.cfg.maxFrameSize (headerAt b).length = true := (lengthInBounds_iff _ _).2 ⟨h0, hmax⟩
  constructor
  · rw [decode_wordOf, hp, select_awaitHeader_rxData, decodeHeader_of_inBounds hb hgood hin]
  · exact ⟨_, (execRsmStart_eq_next_iff _ s _).2 ⟨⟨hp, hgood, hin⟩, rfl⟩, hm, rfl, rfl, rfl⟩

/-- Settles O14: the abort is a recoverable error with the count and the length as they stand. -/
theorem rsmAbortResult : Obligations.RsmAbortResult := by
  intro s hp hlt
  have hinc : s.incomplete = true := (incomplete_iff s).2 hlt
  constructor
  · rw [decode_wordOf, hp, select_reassembling_rxError hinc]
  · exact ⟨_, (execRsmAbort_eq_next_iff s _).2 ⟨⟨hp, hinc⟩, rfl⟩, recover_eq_deadFrom s _⟩

/-- Settles O15: a recoverable error as the abort is, on a row that also asks for a configured timeout. -/
theorem rsmTimeoutResult : Obligations.RsmTimeoutResult := by
  intro s hp hlt ht
  have hinc : s.incomplete = true := (incomplete_iff s).2 hlt
  constructor
  · rw [decode_wordOf, hp, select_reassembling_rxTimeout hinc ht]
  · exact ⟨_, (execRsmTimeout_eq_next_iff s _).2 ⟨⟨hp, hinc, ht⟩, rfl⟩, recover_eq_deadFrom s _⟩

/-- Settles O16: `received = hdr_length` enables the internal operation and leaves no byte to ask for. -/
theorem rsmCompleteResult : Obligations.RsmCompleteResult := by
  intro s hp heq
  have hc : s.complete = true := (complete_iff s).2 heq
  refine ⟨?_, (execRsmComplete_eq_next_iff s _).2 ⟨⟨hp, hc⟩, rfl⟩, request_eq_none_of_complete hp hc⟩
  rw [decode_wordOf, hp, select_reassembling_tau hc]

end Sys2Proof.Machine
end

section
/-! PROOFS. The integrity verifier: what `verify` compares, the two rows of phase 2, and what each operation changes
(42_verifier.md R160 to R165). -/

namespace Sys2Proof.Machine

/-! ### The comparison -/

/-- The computed checksum is the unsigned CRC divided by `CHECKSUM_DIVISOR` (42_verifier.md R162). -/
theorem checksumOf_eq (p : Bytes) : checksumOf p = (crc32 p).toNat / 100 := rfl

/-- The match of 42_verifier.md R160 is an equality of integers, not of 32-bit patterns. -/
theorem verify_iff (p : Bytes) (d : Word32) :
    verify p d = true ↔ (((crc32 p).toNat / 100 : Nat) : Int) = d.toInt := by
  rw [verify, beq_iff_eq, checksumOf_eq]

theorem verify_false_iff (p : Bytes) (d : Word32) :
    verify p d = false ↔ (((crc32 p).toNat / 100 : Nat) : Int) ≠ d.toInt := by
  rw [← Bool.not_eq_true, verify_iff]

/-- Where the payload can be read, R81's condition on the checksum is `verify` of that payload. -/
theorem checksumOk_of_payload {s : State} {p : Bytes} (hp : s.payload = some p) :
    s.checksumOk = verify p s.hdrChecksum := by
  rw [State.checksumOk, hp]

/-! ### What phase 2 selects -/

theorem select_verifying_tau_of_ok {k : Conditions} (hk : k.checksumOk = true) :
    select k .verifying .tau = .ok .verPass :=
  congrArg Except.ok (if_pos hk)

theorem select_verifying_tau_of_mismatch {k : Conditions} (hk : k.checksumOk = false) :
    select k .verifying .tau = .ok .verFail :=
  congrArg Except.ok (if_neg (Bool.eq_false_iff.1 hk))

/-! ### The operations -/

/-- Settles O17: the match makes R81's condition true, which is both the row's and the meaning's own. -/
theorem verPassResult : Obligations.VerPassResult := by
  intro s p hphase hp hmatch
  have hok : s.checksumOk = true := (checksumOk_of_payload hp).trans ((verify_iff p _).2 hmatch)
  constructor
  · rw [decode_wordOf, hphase, select_verifying_tau_of_ok hok]
  · exact (execVerPass_eq_next_iff s _).2 ⟨⟨hphase, hok⟩, rfl⟩

/-- Settles O18: the mismatch selects the other row, which is a recoverable error with the declared and the computed
value. -/
theorem verFailResult : Obligations.VerFailResult := by
  intro s p hphase hp hne
  have hver : verify p s.hdrChecksum = false := (verify_false_iff p _).2 hne
  have hbad : s.checksumOk = false := (checksumOk_of_payload hp).trans hver
  constructor
  · rw [decode_wordOf, hphase, select_verifying_tau_of_mismatch hbad]
  · exact ⟨_, (execVerFail_eq_next_iff s _).2 ⟨hphase, p, hp, hver, rfl⟩, recover_eq_deadFrom s _⟩

/-! ### The contract of `verify` -/

/-- Settles O51: the contract is the law of the comparison for every payload and declared value. -/
theorem verifyContract : Obligations.VerifyContract := verify_iff

end Sys2Proof.Machine
end

section
/-! PROOFS. The engine loop's own operations: the dispatch, the two halts, the halted block, and what each operation
changes (43_engine_loop.md R192 to R196). -/

namespace Sys2Proof.Machine

/-! ### What the rows of the engine loop select -/

theorem select_dispatching_tau (k : Conditions) : select k .dispatching .tau = .ok .engDispatch := rfl

/-- A phase that has not halted takes a broken source before its own rows (30_encoding.md R81). -/
theorem select_rxFatal {k : Conditions} {p : Phase} (hp : p ≠ .terminal) :
    select k p .rxFatal = .ok (.engFatal p) := by
  cases p with
  | terminal => exact absurd rfl hp
  | awaitHeader | reassembling | verifying | dispatching => rfl

/-- A phase that has not halted takes a shutdown before its own rows (30_encoding.md R81). -/
theorem select_shutdown {k : Conditions} {p : Phase} (hp : p ≠ .terminal) :
    select k p .shutdown = .ok (.engShutdown p) := by
  cases p with
  | terminal => exact absurd rfl hp
  | awaitHeader | reassembling | verifying | dispatching => rfl

/-- The other direction of `select_terminal_cases`: the row of `ENG.HALTED` has no condition but on the event. -/
theorem select_terminal_of_ne {k : Conditions} {e : Event} (hr : e ≠ .reset) (ht : e ≠ .take) :
    select k .terminal e = .ok (.engHalted e) := by
  cases e with
  | reset => exact absurd rfl hr
  | take => exact absurd rfl ht
  | tau | rxData | rxError | rxTimeout | rxFatal | shutdown => rfl

/-! ### The halt and the halted block -/

/-- What a halt does, with the dead parts left open: the mailbox is not among what it writes (43_engine_loop.md R194,
R195). -/
theorem halt_eq_deadFrom (s : State) (c : TermCause) (e : OutEvent) :
    s.halt c e =
      State.deadFrom { s with
        phase := .terminal
        termCause := c
        received := 0#31
        events := s.events ++ [e] } (s.halt c e) :=
  rfl

/-- The halted block has no request outstanding (43_engine_loop.md R181). -/
theorem request_eq_none_of_terminal {s : State} (hp : s.phase = .terminal) : s.request = none := by
  rw [State.request, hp]

/-! ### The operations -/

/-- Settles O20: the row has no condition but that the loop has not halted, and the effect is a halt with the cause and
the event of a broken source. -/
theorem engFatalResult : Obligations.EngFatalResult := by
  intro s hp
  constructor
  · rw [decode_wordOf, select_rxFatal hp]
  · intro _
    exact ⟨_, (execEngFatal_eq_next_iff s _).2 ⟨hp, rfl⟩, halt_eq_deadFrom s _ _⟩

/-- Settles O21: a halt as `ENG.FATAL` is, with the host's cause and event. -/
theorem engShutdownResult : Obligations.EngShutdownResult := by
  intro s hp
  constructor
  · rw [decode_wordOf, select_shutdown hp]
  · intro _
    exact ⟨_, (execEngShutdown_eq_next_iff s _).2 ⟨hp, rfl⟩, halt_eq_deadFrom s _ _⟩

/-- Settles O22: the terminal phase answers each of these events by itself, and a request is made in phases 0 and 1
only. -/
theorem engHaltedResult : Obligations.EngHaltedResult := by
  intro s e hp hr ht
  refine ⟨?_, (execEngHalted_eq_next_iff e s s).2 ⟨⟨hp, hr, ht⟩, rfl⟩, request_eq_none_of_terminal hp⟩
  rw [decode_wordOf, hp, select_terminal_of_ne hr ht]

/-- Settles O19: with a payload to read the dispatch emits it, ends the attempt and fills the mailbox, whose old contents
nothing reads. -/
theorem engDispatchResult : Obligations.EngDispatchResult := by
  intro s p hphase hp
  constructor
  · rw [decode_wordOf, hphase, select_dispatching_tau]
  · exact ⟨_, (execEngDispatch_eq_next_iff s _).2 ⟨hphase, p, hp, rfl⟩, rfl⟩

end Sys2Proof.Machine
end

section
/-! PROOFS. The priority of the header's defects (60_exceptions.md R242): which trace item a step takes, what the
classification of a defective datagram makes of it, and the whole step. -/

namespace Sys2Proof.Machine

/-! ### The trace item of a step -/

/-- The condition under which the head of the trace is taken (30_encoding.md R95), read off the item itself. -/
theorem headTaken_of_inputs {s : State} {u : Bool} {e : Event} {rest : List Input} (hin : s.inputs = ⟨u, e⟩ :: rest)
    (htaken : u = true ∨ s.tauEnabled = false) : s.headTaken = true := by
  rw [State.headTaken, hin]
  simpa only [Bool.or_eq_true, Bool.not_eq_true'] using htaken

theorem nextEvent_of_inputs {s : State} {u : Bool} {e : Event} {rest : List Input} (hin : s.inputs = ⟨u, e⟩ :: rest)
    (htaken : u = true ∨ s.tauEnabled = false) : s.nextEvent = e := by
  have hcond : (u || !s.tauEnabled) = true := by
    simpa only [State.headTaken, hin] using headTaken_of_inputs hin htaken
  rw [State.nextEvent, hin]
  exact if_pos hcond

theorem consume_of_inputs {s : State} {u : Bool} {e : Event} {rest : List Input} (hin : s.inputs = ⟨u, e⟩ :: rest)
    (htaken : u = true ∨ s.tauEnabled = false) : s.consume = { s with inputs := rest } := by
  rw [State.consume, if_pos (headTaken_of_inputs hin htaken), hin, List.tail_cons]

/-- Phase 0 only waits for an answer: every item is taken at once (43_engine_loop.md R183). -/
theorem tauEnabled_of_awaitHeader {s : State} (hp : s.phase = .awaitHeader) : s.tauEnabled = false := by
  rw [State.tauEnabled, hp]

/-- The other direction of `step_next_cases`: what the phase and the next event select is run, and the request of its new
state is made. -/
theorem step_eq_next {s t : State} {i : Instr} (hsel : select s.conditions s.phase s.nextEvent = .ok i)
    (hexec : exec i s.consume = .next t) : step s = .next (t.noteRequest i) := by
  rw [step_of_decode ((decode_fetchWord s).trans hsel), hexec, noted_next]

/-! ### The first defect of a header -/

/-- The defect that the tests of R242, taken in their order, find first in a datagram that fails one of them. -/
def firstDefect (b : Bytes) : HeaderDefect :=
  if b.length < 12 then .shortRead else if s32be b 0 ≠ -114514 then .badMagic else .lengthOutOfBounds

theorem firstDefect_of_short {b : Bytes} (hb : b.length < 12) : firstDefect b = .shortRead :=
  if_pos hb

theorem firstDefect_of_badMagic {b : Bytes} (hb : 12 ≤ b.length) (hm : s32be b 0 ≠ -114514) :
    firstDefect b = .badMagic := by
  rw [firstDefect, if_neg (Nat.not_lt.2 hb), if_pos hm]

theorem firstDefect_of_goodMagic {b : Bytes} (hb : 12 ≤ b.length) (hm : s32be b 0 = -114514) :
    firstDefect b = .lengthOutOfBounds := by
  rw [firstDefect, if_neg (Nat.not_lt.2 hb), if_neg (not_not_intro hm)]

/-- Whichever test fails first, the selected operation reports that defect and nothing more (40_header_codec.md R112, R113;
41_reassembler.md R131). -/
theorem exec_of_defectiveHeader {s : State} {b : Bytes} (hp : s.phase = .awaitHeader)
    (hdefect : b.length < 12 ∨ s32be b 0 ≠ -114514 ∨ s32be b 4 < 0 ∨ s.cfg.maxFrameSize.toNat < s32be b 4) :
    ∃ i, decode s.conditions (wordOf s.phase (.rxData b)) = .ok i ∧
      exec i s = .next { s with received := 0#31, events := s.events ++ [.malformedHeader (firstDefect b)] } := by
  by_cases hshort : b.length < 12
  · rw [firstDefect_of_short hshort]
    exact ⟨_, hdrShortResult s b hp hshort⟩
  · have hlong : 12 ≤ b.length := Nat.not_lt.1 hshort
    by_cases hm : s32be b 0 = -114514
    · have hbounds := (hdefect.resolve_left hshort).resolve_left (not_not_intro hm)
      rw [firstDefect_of_goodMagic hlong hm]
      exact ⟨_, rsmRejectResult s b hp hlong hm hbounds⟩
    · rw [firstDefect_of_badMagic hlong hm]
      exact ⟨_, hdrBadmagicResult s b hp hlong hm⟩

/-- Settles O43: phase 0 takes the datagram at once, and the operation its classification selects reports the first
defect; the step adds only the request record. -/
theorem headerDefectPriority : Obligations.HeaderDefectPriority := by
  intro s u b rest hp hin hdefect
  have htaken : u = true ∨ s.tauEnabled = false := .inr (tauEnabled_of_awaitHeader hp)
  have hconsume : s.consume = { s with inputs := rest } := consume_of_inputs hin htaken
  obtain ⟨i, hdecode, hexec⟩ := exec_of_defectiveHeader (s := { s with inputs := rest }) hp hdefect
  have hsel : select s.conditions s.phase s.nextEvent = .ok i := by
    rw [nextEvent_of_inputs hin htaken]
    exact (decode_wordOf _ _ _).symm.trans hdecode
  exact ⟨_, step_eq_next hsel ((congrArg (exec i) hconsume).trans hexec), rfl⟩

end Sys2Proof.Machine
end

section
/-! PROOFS. The reset (70_reset_and_hazards.md R270): its row, the request of phase 0, and what the operation changes. -/

namespace Sys2Proof.Machine

/-- The row of a reset has no condition: R81 puts it before the rows of every phase, the terminal one too. -/
theorem select_reset (k : Conditions) (p : Phase) : select k p .reset = .ok (.engReset p) := rfl

/-- Waiting for a header, the engine asks for `HEADER_SIZE` bytes (43_engine_loop.md R181). -/
theorem request_of_awaitHeader {s : State} (hp : s.phase = .awaitHeader) : s.request = some 12 := by
  rw [State.request, hp]
  rfl

/-- What a reset does, with the dead parts and the model's two records left open: the parameters and the environment's
trace are not among what it writes (70_reset_and_hazards.md R270; 10_state.md R30). -/
theorem resetBlock_eq_deadFrom (s : State) :
    s.resetBlock =
      State.deadFrom { s with
        phase := .awaitHeader
        termCause := .none
        received := 0#31
        pending := none
        events := []
        taken := s.resetBlock.taken
        requests := s.resetBlock.requests } s.resetBlock :=
  rfl

/-- Settles O23: no phase hides the row, and the block is back in phase 0, where the engine asks for a header at once. -/
theorem engResetResult : Obligations.EngResetResult := by
  intro s
  constructor
  · rw [decode_wordOf, select_reset]
  · intro _
    exact ⟨_, (execEngReset_eq_next_iff s _).2 rfl, request_of_awaitHeader s.resetBlock_phase,
      resetBlock_eq_deadFrom s⟩

end Sys2Proof.Machine
end

section
/-! PROOFS. The selection table of 30_encoding.md R81 as named rows: the decoder answers what a row selects, and
decoding agrees with encoding. -/

namespace Sys2Proof.Machine

/-! ### The rows of the table -/

/-- The rows of R81 with their conditions in the decoder's own terms. `select_eq_ok_iff` ties them to the decoder and
`selectionTable_iff_selects` to the table. -/
inductive Selects (k : Conditions) : Phase → Event → Instr → Prop
  | reset (p : Phase) : Selects k p .reset (.engReset p)
  | halted {e : Event} (hr : e ≠ .reset) (ht : e ≠ .take) : Selects k .terminal e (.engHalted e)
  | fatal {p : Phase} (hp : p ≠ .terminal) : Selects k p .rxFatal (.engFatal p)
  | shutdown {p : Phase} (hp : p ≠ .terminal) : Selects k p .shutdown (.engShutdown p)
  | short {b : Bytes} (hb : b.length < 12) : Selects k .awaitHeader (.rxData b) (.hdrShort b)
  | badMagic {b : Bytes} (hb : 12 ≤ b.length) (hm : (headerAt b).magicGood = false) :
      Selects k .awaitHeader (.rxData b) (.hdrBadmagic (headerAt b))
  | reject {b : Bytes} (hb : 12 ≤ b.length) (hm : (headerAt b).magicGood = true)
      (hl : lengthInBounds k.maxFrameSize (headerAt b).length = false) :
      Selects k .awaitHeader (.rxData b) (.rsmReject (headerAt b))
  | start {b : Bytes} (hb : 12 ≤ b.length) (hm : (headerAt b).magicGood = true)
      (hl : lengthInBounds k.maxFrameSize (headerAt b).length = true) :
      Selects k .awaitHeader (.rxData b) (.rsmStart (headerAt b))
  | readError : Selects k .awaitHeader .rxError .hdrReaderr
  | idle (ht : k.timeoutConfigured = true) : Selects k .awaitHeader .rxTimeout .hdrIdle
  | append {b : Bytes} (hi : k.incomplete = true) : Selects k .reassembling (.rxData b) (.rsmAppend b)
  | abort (hi : k.incomplete = true) : Selects k .reassembling .rxError .rsmAbort
  | timeout (hi : k.incomplete = true) (ht : k.timeoutConfigured = true) :
      Selects k .reassembling .rxTimeout .rsmTimeout
  | complete (hc : k.complete = true) : Selects k .reassembling .tau .rsmComplete
  | pass (hk : k.checksumOk = true) : Selects k .verifying .tau .verPass
  | fail (hk : k.checksumOk = false) : Selects k .verifying .tau .verFail
  | dispatch : Selects k .dispatching .tau .engDispatch
  | take (p : Phase) (hp : k.pendingFull = true) : Selects k p .take (.sinkTake p)

/-- A take is selected in every phase, but only while a frame is pending (44_collaborators.md R217). -/
theorem select_take {k : Conditions} (p : Phase) (hp : k.pendingFull = true) :
    select k p .take = .ok (.sinkTake p) :=
  if_pos hp

/-- The decoder selects what a row selects. -/
theorem Selects.select_eq {k : Conditions} {p : Phase} {e : Event} {i : Instr} (h : Selects k p e i) :
    select k p e = .ok i := by
  cases h with
  | reset => exact select_reset k p
  | halted hr ht => exact select_terminal_of_ne hr ht
  | fatal hp => exact select_rxFatal hp
  | shutdown hp => exact select_shutdown hp
  | short hb => rw [select_awaitHeader_rxData, decodeHeader_of_short k hb]
  | badMagic hb hm => rw [select_awaitHeader_rxData, decodeHeader_of_badMagic k hb hm]
  | reject hb hm hl => rw [select_awaitHeader_rxData, decodeHeader_of_outOfBounds hb hm hl]
  | start hb hm hl => rw [select_awaitHeader_rxData, decodeHeader_of_inBounds hb hm hl]
  | readError => exact select_awaitHeader_rxError k
  | idle ht => exact select_awaitHeader_rxTimeout ht
  | append hi => exact select_reassembling_rxData _ hi
  | abort hi => exact select_reassembling_rxError hi
  | timeout hi ht => exact select_reassembling_rxTimeout hi ht
  | complete hc => exact select_reassembling_tau hc
  | pass hk => exact select_verifying_tau_of_ok hk
  | fail hk => exact select_verifying_tau_of_mismatch hk
  | dispatch => exact select_dispatching_tau k
  | take p hp => exact select_take p hp

/-- Every phase-0 datagram is on exactly the row its first failing test names (60_exceptions.md R242). -/
theorem selects_decodeHeader (k : Conditions) (b : Bytes) :
    Selects k .awaitHeader (.rxData b) (decodeHeader k b) := by
  by_cases hb : b.length < 12
  · rw [decodeHeader_of_short k hb]
    exact .short hb
  · have hb : 12 ≤ b.length := Nat.not_lt.1 hb
    cases hm : (headerAt b).magicGood with
    | false =>
      rw [decodeHeader_of_badMagic k hb hm]
      exact .badMagic hb hm
    | true =>
      cases hl : lengthInBounds k.maxFrameSize (headerAt b).length with
      | false =>
        rw [decodeHeader_of_outOfBounds hb hm hl]
        exact .reject hb hm hl
      | true =>
        rw [decodeHeader_of_inBounds hb hm hl]
        exact .start hb hm hl

/-- A row with a condition selects its operation only when the condition holds. -/
theorem of_ite_eq_ok {c : Bool} {a i : Instr} {r : DecodeError}
    (h : (if c then Except.ok a else Except.error r) = .ok i) : c = true ∧ i = a := by
  cases c with
  | true => exact ⟨rfl, (Except.ok.inj h).symm⟩
  | false => cases h

/-- What the decoder selects is on a row. -/
theorem selects_of_select_eq {k : Conditions} {p : Phase} {e : Event} {i : Instr} (h : select k p e = .ok i) :
    Selects k p e i := by
  by_cases hp : p = .terminal
  · subst hp
    obtain ⟨rfl, rfl⟩ | ⟨rfl, rfl⟩ | rfl := select_terminal_cases h
    · exact .reset _
    · exact .take _ (of_ite_eq_ok h).1
    · refine .halted ?_ ?_ <;> rintro rfl
      · cases h
      · cases (of_ite_eq_ok h).2
  cases e with
  | reset =>
    cases h
    exact .reset p
  | take =>
    obtain ⟨hk, rfl⟩ := of_ite_eq_ok h
    exact .take p hk
  | rxFatal =>
    cases (select_rxFatal hp).symm.trans h
    exact .fatal hp
  | shutdown =>
    cases (select_shutdown hp).symm.trans h
    exact .shutdown hp
  | tau =>
    cases p with
    | awaitHeader => cases h
    | reassembling =>
      obtain ⟨hc, rfl⟩ := of_ite_eq_ok h
      exact .complete hc
    | verifying =>
      cases hk : k.checksumOk with
      | true =>
        cases (select_verifying_tau_of_ok hk).symm.trans h
        exact .pass hk
      | false =>
        cases (select_verifying_tau_of_mismatch hk).symm.trans h
        exact .fail hk
    | dispatching =>
      cases h
      exact .dispatch
    | terminal => exact absurd rfl hp
  | rxData b =>
    cases p with
    | awaitHeader =>
      cases h
      exact selects_decodeHeader k b
    | reassembling =>
      obtain ⟨hi, rfl⟩ := of_ite_eq_ok h
      exact .append hi
    | verifying | dispatching => cases h
    | terminal => exact absurd rfl hp
  | rxError =>
    cases p with
    | awaitHeader =>
      cases h
      exact .readError
    | reassembling =>
      obtain ⟨hi, rfl⟩ := of_ite_eq_ok h
      exact .abort hi
    | verifying | dispatching => cases h
    | terminal => exact absurd rfl hp
  | rxTimeout =>
    cases p with
    | awaitHeader =>
      obtain ⟨ht, rfl⟩ := of_ite_eq_ok h
      exact .idle ht
    | reassembling =>
      cases hi : k.incomplete with
      | true =>
        obtain ⟨ht, rfl⟩ := of_ite_eq_ok ((if_pos hi).symm.trans h)
        exact .timeout hi ht
      | false => cases (if_neg (Bool.eq_false_iff.1 hi)).symm.trans h
    | verifying | dispatching => cases h
    | terminal => exact absurd rfl hp

theorem select_eq_ok_iff {k : Conditions} {p : Phase} {e : Event} {i : Instr} :
    select k p e = .ok i ↔ Selects k p e i :=
  ⟨selects_of_select_eq, Selects.select_eq⟩

/-- The bounds of R131 on a datagram's second field. -/
theorem headerAt_lengthInBounds_iff (m : BitVec 31) (b : Bytes) :
    lengthInBounds m (headerAt b).length = true ↔ 0 ≤ s32be b 4 ∧ s32be b 4 ≤ m.toNat :=
  lengthInBounds_iff m _

theorem headerAt_lengthInBounds_false_iff (m : BitVec 31) (b : Bytes) :
    lengthInBounds m (headerAt b).length = false ↔ s32be b 4 < 0 ∨ m.toNat < s32be b 4 :=
  lengthInBounds_false_iff m _

theorem selectionTable_of_selects {k : Conditions} {p : Phase} {e : Event} {i : Instr} (h : Selects k p e i) :
    selectionTable k p e i := by
  unfold selectionTable
  cases h with
  | badMagic hb hm => simp [hb, (headerAt_magicGood_false_iff _).1 hm]
  | reject hb hm hl =>
    simp [hb, (headerAt_magicGood_iff _).1 hm, (headerAt_lengthInBounds_false_iff _ _).1 hl]
  | start hb hm hl =>
    simp [hb, (headerAt_magicGood_iff _).1 hm, (headerAt_lengthInBounds_iff _ _).1 hl]
  | _ => simp [*]

theorem selects_of_selectionTable {k : Conditions} {p : Phase} {e : Event} {i : Instr}
    (h : selectionTable k p e i) : Selects k p e i := by
  obtain ⟨rfl, rfl⟩ | ⟨rfl, hr, ht, rfl⟩ | ⟨hp, rfl, rfl⟩ | ⟨hp, rfl, rfl⟩ | ⟨b, rfl, rfl, hb, rfl⟩ |
    ⟨b, rfl, rfl, hb, hm, rfl⟩ | ⟨b, rfl, rfl, hb, hm, hl, rfl⟩ | ⟨b, rfl, rfl, hb, hm, h0, hl, rfl⟩ |
    ⟨rfl, rfl, rfl⟩ | ⟨rfl, rfl, ht, rfl⟩ | ⟨b, rfl, rfl, hi, rfl⟩ | ⟨rfl, rfl, hi, rfl⟩ | ⟨rfl, rfl, hi, ht, rfl⟩ |
    ⟨rfl, rfl, hc, rfl⟩ | ⟨rfl, rfl, hk, rfl⟩ | ⟨rfl, rfl, hk, rfl⟩ | ⟨rfl, rfl, rfl⟩ | ⟨rfl, hk, rfl⟩ := h
  · exact .reset p
  · exact .halted hr ht
  · exact .fatal hp
  · exact .shutdown hp
  · exact .short hb
  · exact .badMagic hb ((headerAt_magicGood_false_iff b).2 hm)
  · exact .reject hb ((headerAt_magicGood_iff b).2 hm) ((headerAt_lengthInBounds_false_iff _ b).2 hl)
  · exact .start hb ((headerAt_magicGood_iff b).2 hm) ((headerAt_lengthInBounds_iff _ b).2 ⟨h0, hl⟩)
  · exact .readError
  · exact .idle ht
  · exact .append hi
  · exact .abort hi
  · exact .timeout hi ht
  · exact .complete hc
  · exact .pass hk
  · exact .fail hk
  · exact .dispatch
  · exact .take p hk

theorem selectionTable_iff_selects {k : Conditions} {p : Phase} {e : Event} {i : Instr} :
    selectionTable k p e i ↔ Selects k p e i :=
  ⟨selects_of_selectionTable, selectionTable_of_selects⟩

/-! ### The rows are exhaustive -/

/-- In the terminal phase only a take with nothing pending has no row (43_engine_loop.md R196). -/
theorem exists_selects_of_terminal {k : Conditions} {e : Event} (ht : e = .take → k.pendingFull = true) :
    ∃ i, Selects k .terminal e i := by
  by_cases hr : e = .reset
  · subst hr
    exact ⟨_, .reset _⟩
  · by_cases he : e = .take
    · subst he
      exact ⟨_, .take _ (ht rfl)⟩
    · exact ⟨_, .halted hr he⟩

/-- Every event that can occur has a row (30_encoding.md R80, last column). -/
theorem exists_selects_of_canOccur {k : Conditions} {p : Phase} {e : Event} (h : eventCanOccur k p e) :
    ∃ i, Selects k p e i := by
  obtain ⟨htau, hanswer, htimeout, htake⟩ := h
  by_cases hp : p = .terminal
  · subst hp
    exact exists_selects_of_terminal htake
  cases e with
  | reset => exact ⟨_, .reset p⟩
  | take => exact ⟨_, .take p (htake rfl)⟩
  | rxFatal => exact ⟨_, .fatal hp⟩
  | shutdown => exact ⟨_, .shutdown hp⟩
  | tau =>
    obtain ⟨rfl, hc⟩ | rfl | rfl := htau rfl
    · exact ⟨_, .complete hc⟩
    · cases hk : k.checksumOk with
      | true => exact ⟨_, .pass hk⟩
      | false => exact ⟨_, .fail hk⟩
    · exact ⟨_, .dispatch⟩
  | rxData b =>
    obtain rfl | ⟨rfl, hi⟩ := hanswer rfl
    · exact ⟨_, selects_decodeHeader k b⟩
    · exact ⟨_, .append hi⟩
  | rxError =>
    obtain rfl | ⟨rfl, hi⟩ := hanswer rfl
    · exact ⟨_, .readError⟩
    · exact ⟨_, .abort hi⟩
  | rxTimeout =>
    obtain rfl | ⟨rfl, hi⟩ := hanswer rfl
    · exact ⟨_, .idle (htimeout rfl)⟩
    · exact ⟨_, .timeout hi (htimeout rfl)⟩

/-- Settles O6: decoder and table have the same rows, and each event that can occur is on one. -/
theorem selectionIsTheTable : Obligations.SelectionIsTheTable := by
  constructor
  · intro k p e i
    rw [select_eq_ok_iff, selectionTable_iff_selects]
  · intro k p e h
    obtain ⟨i, hi⟩ := exists_selects_of_canOccur h
    exact ⟨i, hi.select_eq⟩

/-! ### Decoding and encoding -/

/-- A header written and read back is the same header, so its row is decided by its own fields. -/
theorem decodeHeader_encodeHeader (k : Conditions) (h : FrameHeader) :
    decodeHeader k (encodeHeader h) =
      if h.magicGood then
        if lengthInBounds k.maxFrameSize h.length then .rsmStart h else .rsmReject h
      else .hdrBadmagic h := by
  rw [decodeHeader_eq, headerAt_encodeHeader, if_neg (by rw [length_encodeHeader]; exact lt_irrefl 12)]

/-- The phase and event of an operation select it, where its operands and the conditions allow it. -/
theorem select_selection {k : Conditions} {i : Instr} (hwf : i.wf = true) (hk : i.admittedBy k = true) :
    select k i.selection.1 i.selection.2 = .ok i := by
  cases i with
  | engReset p => exact select_reset k p
  | engHalted e =>
    simp only [Instr.wf, Bool.and_eq_true, bne_iff_ne] at hwf
    exact select_terminal_of_ne hwf.1 hwf.2
  | engFatal p => exact select_rxFatal (bne_iff_ne.1 hwf)
  | engShutdown p => exact select_shutdown (bne_iff_ne.1 hwf)
  | hdrShort b =>
    exact congrArg Except.ok (decodeHeader_of_short k (of_decide_eq_true hwf))
  | hdrBadmagic h =>
    simp only [Instr.wf, Bool.not_eq_true'] at hwf
    simp [Instr.selection, select_awaitHeader_rxData, decodeHeader_encodeHeader, hwf]
  | rsmReject h =>
    simp only [Instr.wf] at hwf
    simp only [Instr.admittedBy, Bool.not_eq_true'] at hk
    simp [Instr.selection, select_awaitHeader_rxData, decodeHeader_encodeHeader, hwf, hk]
  | rsmStart h =>
    simp only [Instr.wf] at hwf
    simp only [Instr.admittedBy] at hk
    simp [Instr.selection, select_awaitHeader_rxData, decodeHeader_encodeHeader, hwf, hk]
  | hdrReaderr => exact select_awaitHeader_rxError k
  | hdrIdle => exact select_awaitHeader_rxTimeout hk
  | rsmAppend b => exact select_reassembling_rxData b hk
  | rsmAbort => exact select_reassembling_rxError hk
  | rsmTimeout =>
    obtain ⟨hi, ht⟩ := (Bool.and_eq_true _ _).mp hk
    exact select_reassembling_rxTimeout hi ht
  | rsmComplete => exact select_reassembling_tau hk
  | verPass => exact select_verifying_tau_of_ok hk
  | verFail => exact select_verifying_tau_of_mismatch (by simpa [Instr.admittedBy] using hk)
  | engDispatch => exact select_dispatching_tau k
  | sinkTake p => exact select_take p hk

/-- Settles O4: the word of an operation spells its phase and event, and these select it. -/
theorem decodeOfEncode : Obligations.DecodeOfEncode := by
  intro k i hwf hk
  rw [encode, decode_wordOf, select_selection hwf hk]

/-- A word that decodes spells a phase and an event that select its operation. -/
theorem selects_of_decode {k : Conditions} {w : Bytes} {i : Instr} (h : decode k w = .ok i) :
    ∃ p e, w = wordOf p e ∧ Selects k p e i := by
  unfold decode at h
  split at h
  · cases h
  · rename_i p e hpe
    exact ⟨p, e, wordOf_of_decodeSelector hpe, selects_of_select_eq h⟩

/-- A row selects only operations that their operands and the conditions allow. -/
theorem Selects.wf_and_admitted {k : Conditions} {p : Phase} {e : Event} {i : Instr} (h : Selects k p e i) :
    i.wf = true ∧ i.admittedBy k = true := by
  cases h <;> simp [Instr.wf, Instr.admittedBy, Config.headerSize, *]

/-- The word of an operation is the word of its row, but for the three rows of a header, which keep 12 bytes of the
datagram (30_encoding.md R85). -/
theorem Selects.encode_eq {k : Conditions} {p : Phase} {e : Event} {i : Instr} (h : Selects k p e i) :
    encode i = wordOf p e ∨ ∃ b : Bytes, 12 ≤ b.length ∧ wordOf p e = wordOf .awaitHeader (.rxData b) ∧
      encode i = wordOf .awaitHeader (.rxData (b.take 12)) := by
  cases h with
  | badMagic hb | reject hb | start hb =>
    refine .inr ⟨_, hb, rfl, ?_⟩
    rw [← encodeHeader_headerAt hb]
    rfl
  | _ => exact .inl rfl

/-- Settles O5: the row the word is on says what its operation encodes to. -/
theorem encodeOfDecode : Obligations.EncodeOfDecode := by
  intro k w i h
  obtain ⟨p, e, rfl, hsel⟩ := selects_of_decode h
  exact ⟨hsel.wf_and_admitted.1, hsel.wf_and_admitted.2, hsel.encode_eq⟩

/-- Settles O3: each word is short and closed, so the decoder computes it. -/
theorem knownWordsDecode : Obligations.KnownWordsDecode := by
  unfold Obligations.KnownWordsDecode
  decide

end Sys2Proof.Machine
end

section
/-! PROOFS. The bytes of a header field (30_encoding.md R83). -/

namespace Sys2Proof.Machine

theorem toNat_fieldAt (b : Bytes) (o : Nat) : (fieldAt b o).toNat = u32be b o := by
  rw [fieldAt, BitVec.toNat_ofNat, Nat.mod_eq_of_lt (u32be_lt b o)]

theorem getElem?_eq_byteAt {b : Bytes} {o : Nat} (h : o < b.length) : b[o]? = some (byteAt b o) := by
  simp [byteAt, List.getD, List.getElem?_eq_getElem h]

/-- Shifting and masking picks each of four bytes out of their weighted sum. -/
theorem bytes_of_weighted_sum {w b0 b1 b2 b3 : Nat}
    (hw : w = b0 * 2 ^ 24 + b1 * 2 ^ 16 + b2 * 2 ^ 8 + b3)
    (h0 : b0 < 2 ^ 8) (h1 : b1 < 2 ^ 8) (h2 : b2 < 2 ^ 8) (h3 : b3 < 2 ^ 8) :
    w / 2 ^ 24 % 2 ^ 8 = b0 ∧ w / 2 ^ 16 % 2 ^ 8 = b1 ∧ w / 2 ^ 8 % 2 ^ 8 = b2 ∧ w / 2 ^ 0 % 2 ^ 8 = b3 := by
  omega

/-- A byte of a pattern, by its value. -/
theorem extractLsb'_eq_of_toNat {w : Word32} {i : Nat} {x : Byte} (h : w.toNat / 2 ^ i % 2 ^ 8 = x.toNat) :
    w.extractLsb' i 8 = x := by
  apply BitVec.eq_of_toNat_eq
  rw [BitVec.extractLsb'_toNat, Nat.shiftRight_eq_div_pow, h]

/-- Two's complement, written out for 32 bits. -/
theorem toInt_word32 (w : Word32) :
    w.toInt = if w.toNat < 2 ^ 31 then (w.toNat : Int) else w.toNat - 2 ^ 32 := by
  have hlt := w.isLt
  rw [BitVec.toInt_eq_toNat_cond]
  split <;> split <;> omega

/-- Settles O48: a field's value is its four bytes weighted by powers of 256. -/
theorem fieldAssembly : Obligations.FieldAssembly := by
  intro b o hb
  have hval := toNat_fieldAt b o
  rw [u32be] at hval
  obtain ⟨h0, h1, h2, h3⟩ := bytes_of_weighted_sum hval (byteAt b o).isLt (byteAt b (o + 1)).isLt
    (byteAt b (o + 2)).isLt (byteAt b (o + 3)).isLt
  rw [getElem?_eq_byteAt (by omega : o < b.length), getElem?_eq_byteAt (by omega : o + 1 < b.length),
    getElem?_eq_byteAt (by omega : o + 2 < b.length), getElem?_eq_byteAt (by omega : o + 3 < b.length),
    extractLsb'_eq_of_toNat h0, extractLsb'_eq_of_toNat h1, extractLsb'_eq_of_toNat h2, extractLsb'_eq_of_toNat h3]
  exact ⟨⟨rfl, rfl, rfl, rfl⟩, toInt_word32 _⟩

end Sys2Proof.Machine
end

section
/-! PROOFS. The CRC-32: its check values, the byte-table form, and the range of the divided value (42_verifier.md R161
to R163). -/

namespace Sys2Proof.Machine

/-! ### The byte-table form -/

theorem crcBit_of_low_set {x : Word32} (h : x.getLsbD 0 = true) : crcBit x = x >>> 1 ^^^ Config.crcPoly :=
  if_pos h

theorem crcBit_of_low_clear {x : Word32} (h : x.getLsbD 0 = false) : crcBit x = x >>> 1 :=
  if_neg (Bool.eq_false_iff.1 h)

/-- A round only shifts and, for a set low bit, adds a constant, so it is linear over exclusive-or: two added constants
cancel. -/
theorem crcBit_xor (x y : Word32) : crcBit (x ^^^ y) = crcBit x ^^^ crcBit y := by
  have hlow : (x ^^^ y).getLsbD 0 = (x.getLsbD 0 ^^ y.getLsbD 0) := BitVec.getLsbD_xor
  have hshift : (x ^^^ y) >>> 1 = x >>> 1 ^^^ y >>> 1 := BitVec.ushiftRight_xor_distrib x y 1
  have hcancel : (x >>> 1 ^^^ Config.crcPoly) ^^^ (y >>> 1 ^^^ Config.crcPoly) = x >>> 1 ^^^ y >>> 1 := by
    rw [BitVec.xor_comm (y >>> 1), BitVec.xor_assoc, ← BitVec.xor_assoc Config.crcPoly, BitVec.xor_self,
      BitVec.zero_xor]
  cases hx : x.getLsbD 0 <;> cases hy : y.getLsbD 0 <;> rw [hx, hy] at hlow
  · rw [crcBit_of_low_clear hlow, crcBit_of_low_clear hx, crcBit_of_low_clear hy, hshift]
  · rw [crcBit_of_low_set hlow, crcBit_of_low_clear hx, crcBit_of_low_set hy, hshift, BitVec.xor_assoc]
  · rw [crcBit_of_low_set hlow, crcBit_of_low_set hx, crcBit_of_low_clear hy, hshift, BitVec.xor_assoc,
      BitVec.xor_assoc, BitVec.xor_comm (y >>> 1)]
  · rw [crcBit_of_low_clear hlow, crcBit_of_low_set hx, crcBit_of_low_set hy, hshift, hcancel]

/-- So are the eight rounds. -/
theorem crcEight_xor (x y : Word32) : crcEight (x ^^^ y) = crcEight x ^^^ crcEight y := by
  simp only [crcEight, crcBit_xor]

/-- Eight rounds on a clear low byte are a shift by a byte. -/
theorem crcEight_of_low_byte_clear {x : Word32} (h : ∀ j, j < 8 → x.getLsbD j = false) : crcEight x = x >>> 8 := by
  have hround : ∀ n, n < 8 → crcBit (x >>> n) = x >>> (n + 1) := by
    intro n hn
    rw [crcBit_of_low_clear (by rw [BitVec.getLsbD_ushiftRight]; exact h n hn), ← BitVec.shiftRight_add]
  have hfirst : crcBit x = x >>> 1 := hround 0 (by decide)
  rw [crcEight, hfirst, hround 1 (by decide), hround 2 (by decide), hround 3 (by decide), hround 4 (by decide),
    hround 5 (by decide), hround 6 (by decide), hround 7 (by decide)]

/-- The low byte of a register value, as the table reads it. -/
def lowByte (x : Word32) : Word32 := (x.setWidth 8).setWidth 32

theorem getLsbD_lowByte (x : Word32) (j : Nat) : (lowByte x).getLsbD j = (decide (j < 8) && x.getLsbD j) := by
  by_cases hj : j < 8
  · have hj' : j < 32 := by omega
    simp [lowByte, hj, hj']
  · simp [lowByte, hj]

/-- The rest of a register value has a clear low byte and the same upper bytes. -/
theorem crcEight_xor_lowByte (x : Word32) : crcEight (x ^^^ lowByte x) = x >>> 8 := by
  rw [crcEight_of_low_byte_clear]
  · apply BitVec.eq_of_getLsbD_eq
    intro j _
    simp [getLsbD_lowByte]
  · intro j hj
    simp [getLsbD_lowByte, hj]

/-- A byte sits in the low byte, which the shift drops. -/
theorem xor_byte_ushiftRight (c : Word32) (b : Byte) : (c ^^^ b.setWidth 32) >>> 8 = c >>> 8 := by
  apply BitVec.eq_of_getLsbD_eq
  intro j _
  simp

/-- Settles O50: by linearity the register splits into its low byte, which the table covers, and the rest, which is only
shifted. -/
theorem crcByteTableForm : Obligations.CrcByteTableForm := by
  intro c b
  have hsplit : (c ^^^ b.setWidth 32) ^^^ lowByte (c ^^^ b.setWidth 32) ^^^ lowByte (c ^^^ b.setWidth 32) =
      c ^^^ b.setWidth 32 := by
    rw [BitVec.xor_assoc, BitVec.xor_self, BitVec.xor_zero]
  calc crcByte c b
      = crcEight ((c ^^^ b.setWidth 32) ^^^ lowByte (c ^^^ b.setWidth 32) ^^^ lowByte (c ^^^ b.setWidth 32)) := by
        rw [hsplit, crcByte]
    _ = (c ^^^ b.setWidth 32) >>> 8 ^^^ crcEight (lowByte (c ^^^ b.setWidth 32)) := by
        rw [crcEight_xor, crcEight_xor_lowByte]
    _ = (c >>> 8) ^^^ crcTable ((c ^^^ b.setWidth 32).setWidth 8) := by
        rw [xor_byte_ushiftRight, lowByte, crcTable]

/-! ### Values -/

/-- Settles O49: each value is the result of a closed computation of at most nine bytes. -/
theorem crcCheckValues : Obligations.CrcCheckValues := by
  unfold Obligations.CrcCheckValues
  decide +kernel

theorem checksumOf_le (p : Bytes) : checksumOf p ≤ 42949672 := by
  have hlt : (crc32 p).toNat < 2 ^ 32 := (crc32 p).isLt
  rw [checksumOf_eq]
  omega

/-- Settles O52: an unsigned 32-bit value divided by 100 is in the range, and a match makes the declared value equal to
it. -/
theorem checksumRange : Obligations.ChecksumRange := by
  intro p d
  refine ⟨checksumOf_le p, fun hd => ?_⟩
  have hle := checksumOf_le p
  rw [checksumOf_eq] at hle
  rw [verify_false_iff]
  omega

end Sys2Proof.Machine
end

section
/-! PROOFS. The buffer: what a write stores, a read gives back (20_memory.md R52, R53). -/

namespace Sys2Proof.Machine

/-- The bytes written are the bytes read. -/
theorem readBytes_writeBytes_same (m : Memory) (a : Nat) (v : Bytes) :
    (m.writeBytes a v).readBytes a v.length = some v := by
  rw [Memory.readBytes_eq_some_iff]
  refine ⟨rfl, fun i hi => ?_⟩
  rw [Memory.readByte_writeBytes, if_pos ⟨Nat.le_add_right a i, Nat.add_lt_add_left hi a⟩, Nat.add_sub_cancel_left]

/-- Settles O53: the write is the buffer's multi-byte write, whose law says what each byte reads as afterwards. -/
theorem memWriteThenMemRead : Obligations.MemWriteThenMemRead := by
  intro s addr v
  constructor
  · intro hover
    exact if_neg (Nat.not_le.2 hover)
  · intro hfits
    refine ⟨_, (memWrite_eq_some_iff s _ addr v).2 ⟨hfits, rfl⟩, rfl, fun hin => ?_, fun a ha => ?_⟩
    · exact (if_pos hin).trans (readBytes_writeBytes_same s.buf addr v)
    · exact (Memory.readByte_writeBytes s.buf addr v a).trans (if_neg (by omega))

end Sys2Proof.Machine
end

section
/-! PROOFS. The step and its trace, the values after reset, the take and the request (30_encoding.md R95; 10_state.md
R36; 44_collaborators.md R217; 43_engine_loop.md R181). -/

namespace Sys2Proof.Machine

/-! ### The step and the trace -/

/-- Using up an item changes the trace only. -/
theorem consume_eq (s : State) : s.consume = { s with inputs := if s.headTaken then s.inputs.tail else s.inputs } := by
  unfold State.consume
  split <;> rfl

/-- Settles O1: the step is the operation that was decoded, with its request noted. -/
theorem stepRunsTheDecodedOperation : Obligations.StepRunsTheDecodedOperation := by
  intro s i h
  exact ⟨step_of_decode h, consume_eq s, noted_next i, fun _ => rfl, fun _ => rfl⟩

/-- With no item left the next transition is an internal one. -/
theorem nextEvent_of_no_inputs {s : State} (h : s.inputs = []) : s.nextEvent = .tau := by
  rw [State.nextEvent, h]

theorem consume_of_no_inputs {s : State} (h : s.inputs = []) : s.consume = s := by
  rw [State.consume, State.headTaken, h]
  rfl

/-- No urgent item stands at the head of the trace. -/
def HeadIsPlain (is : List Input) : Prop := ∀ i, is.head? = some i → i.urgent = false

/-- While an internal operation is enabled a plain item waits (30_encoding.md R95). -/
theorem headTaken_of_internal {s : State} (ht : s.tauEnabled = true) (hp : HeadIsPlain s.inputs) :
    s.headTaken = false := by
  unfold State.headTaken
  split
  · rfl
  · rename_i i rest hin
    rw [hp i (by rw [hin]; rfl), ht]
    rfl

theorem nextEvent_of_internal {s : State} (ht : s.tauEnabled = true) (hp : HeadIsPlain s.inputs) :
    s.nextEvent = .tau := by
  unfold State.nextEvent
  split
  · rfl
  · rename_i i rest hin
    rw [hp i (by rw [hin]; rfl), ht]
    rfl

theorem consume_of_internal {s : State} (ht : s.tauEnabled = true) (hp : HeadIsPlain s.inputs) : s.consume = s := by
  rw [State.consume, headTaken_of_internal ht hp]
  rfl

/-- Settles O2: the head of the trace, its mark and the enabled internal operation decide, in this order. -/
theorem fetchFollowsTheTrace : Obligations.FetchFollowsTheTrace := by
  intro s
  refine ⟨rfl, fun h => ⟨nextEvent_of_no_inputs h, consume_of_no_inputs h⟩, fun u e rest hin => ⟨fun htaken => ?_, ?_⟩⟩
  · exact ⟨nextEvent_of_inputs hin htaken, consume_of_inputs hin htaken⟩
  · rintro ⟨rfl, ht⟩
    have hp : HeadIsPlain s.inputs := by
      intro i hi
      rw [hin] at hi
      cases hi
      rfl
    exact ⟨nextEvent_of_internal ht hp, consume_of_internal ht hp⟩

/-! ### Reset -/

/-- Settles O25: the fields of the reset state, as written down. -/
theorem resetValues : Obligations.ResetValues :=
  ⟨rfl, rfl, rfl, rfl, request_of_awaitHeader rfl, rfl, rfl⟩

/-- Settles O33: nothing was taken and nothing was dispatched. -/
theorem sinkOrderAtReset : Obligations.SinkOrderAtReset :=
  List.Sublist.slnil

/-! ### The take -/

/-- Settles O24: the row and the meaning both ask only for a pending frame. -/
theorem sinkTakeResult : Obligations.SinkTakeResult := by
  intro s p hp
  constructor
  · rw [decode_wordOf, select_take]
    rw [State.conditions_pendingFull, hp, Option.isSome_some]
  · intro _
    exact (execSinkTake_eq_next_iff s _).2 ⟨p, hp, rfl⟩

/-- What is selected by no row is answered by its reason. -/
theorem step_of_select_error {s : State} {r : DecodeError} (h : select s.conditions s.phase s.nextEvent = .error r) :
    step s = unselected r :=
  step_of_error ((decode_fetchWord s).trans h)

/-- With an empty mailbox a take is not enabled (93 U14). -/
theorem step_take_of_none {s : State} (he : s.nextEvent = .take) (hp : s.pending = none) :
    step s = .refused .noStep := by
  have hsel : select s.conditions s.phase .take = .error .nothingPending :=
    if_neg (by rw [State.conditions_pendingFull, hp]; exact Bool.false_ne_true)
  rw [step_of_select_error (he ▸ hsel), unselected]

/-- Settles O45: the item is met, and the mailbox is empty. -/
theorem takeWithNothingPending : Obligations.TakeWithNothingPending := by
  intro s u rest hin htaken hp
  exact step_take_of_none (nextEvent_of_inputs hin htaken) hp

/-! ### The request -/

theorem request_of_incomplete {s : State} (hp : s.phase = .reassembling) (hi : s.incomplete = true) :
    s.request = some s.want := by
  simp [State.request, hp, hi]

/-- A request is outstanding in phase 0, and in phase 1 while bytes are missing (43_engine_loop.md R181). -/
theorem request_eq_some_iff (s : State) (m : Nat) :
    s.request = some m ↔
      (s.phase = .awaitHeader ∧ m = 12) ∨ (s.phase = .reassembling ∧ s.incomplete = true ∧ m = s.want) := by
  cases hp : s.phase <;> simp [State.request, hp, Config.headerSize, @eq_comm Nat _ m]

theorem want_range {s : State} (hi : s.incomplete = true) : 1 ≤ s.want ∧ s.want ≤ 32767 := by
  have hlt : (s.received.toNat : Int) < s.lengthVal := (incomplete_iff s).1 hi
  refine ⟨Nat.le_min.2 ⟨by decide, ?_⟩, Nat.min_le_left _ _⟩
  omega

/-- Settles O41: the cases of the request, and the range of each. -/
theorem requestFunction : Obligations.RequestFunction := by
  intro s
  refine ⟨request_of_awaitHeader, fun hp hlt => request_of_incomplete hp ((incomplete_iff s).2 hlt), fun h0 h1 => ?_,
    fun m hm => ?_⟩
  · rw [Option.eq_none_iff_forall_ne_some]
    intro m hm
    obtain ⟨hp, -⟩ | ⟨hp, hi, -⟩ := (request_eq_some_iff s m).1 hm
    · exact h0 hp
    · exact h1 ⟨hp, (incomplete_iff s).1 hi⟩
  · obtain ⟨-, rfl⟩ | ⟨-, hi, rfl⟩ := (request_eq_some_iff s m).1 hm
    · decide
    · exact want_range hi

end Sys2Proof.Machine
end

section
/-! PROOFS. What one transition can do, and the rules over all operations that follow from it (10_state.md R37;
20_memory.md section 5; 43_engine_loop.md R184; 60_exceptions.md sections 1 and 2). -/

namespace Sys2Proof.Machine

/-! ### The effect of a transition -/

/-- The state with `v` stored behind the bytes already received (41_reassembler.md R134). -/
def State.appended (s : State) (v : Bytes) : State :=
  { s with
    buf := s.buf.writeBytes s.received.toNat v
    received := BitVec.ofNat 31 (s.received.toNat + v.length) }

@[simp] theorem State.appended_phase (s : State) (v : Bytes) : (s.appended v).phase = s.phase := rfl
@[simp] theorem State.appended_hdrMagic (s : State) (v : Bytes) : (s.appended v).hdrMagic = s.hdrMagic := rfl
@[simp] theorem State.appended_hdrLength (s : State) (v : Bytes) : (s.appended v).hdrLength = s.hdrLength := rfl
@[simp] theorem State.appended_hdrChecksum (s : State) (v : Bytes) : (s.appended v).hdrChecksum = s.hdrChecksum := rfl
@[simp] theorem State.appended_termCause (s : State) (v : Bytes) : (s.appended v).termCause = s.termCause := rfl
@[simp] theorem State.appended_pending (s : State) (v : Bytes) : (s.appended v).pending = s.pending := rfl
@[simp] theorem State.appended_events (s : State) (v : Bytes) : (s.appended v).events = s.events := rfl
@[simp] theorem State.appended_cfg (s : State) (v : Bytes) : (s.appended v).cfg = s.cfg := rfl
@[simp] theorem State.appended_inputs (s : State) (v : Bytes) : (s.appended v).inputs = s.inputs := rfl
@[simp] theorem State.appended_taken (s : State) (v : Bytes) : (s.appended v).taken = s.taken := rfl
@[simp] theorem State.appended_requests (s : State) (v : Bytes) : (s.appended v).requests = s.requests := rfl
@[simp] theorem State.appended_freeCount (s : State) (v : Bytes) : (s.appended v).freeCount = s.freeCount := rfl
@[simp] theorem State.appended_lengthVal (s : State) (v : Bytes) : (s.appended v).lengthVal = s.lengthVal := rfl

/-- Everything an operation selected on the event `e` does to the state, before its request is noted; `exec_effect` ties
it to the meanings. The seven recoverable errors are one case, since R239 gives them one effect. -/
inductive Effect (s : State) : Event → Instr → State → Prop
  | reset (p : Phase) : Effect s .reset (.engReset p) s.resetBlock
  | halted {e : Event} (hs : s.phase = .terminal) (hr : e ≠ .reset) (ht : e ≠ .take) : Effect s e (.engHalted e) s
  | fatal {p : Phase} (hs : s.phase ≠ .terminal) :
      Effect s .rxFatal (.engFatal p) (s.halt .socketFatal .socketFatal)
  | shutdown {p : Phase} (hs : s.phase ≠ .terminal) : Effect s .shutdown (.engShutdown p) (s.halt .shutdown .shutdown)
  | recover {e : Event} {i : Instr} {x : OutEvent}
      (hs : s.phase = .awaitHeader ∨ s.phase = .reassembling ∨ s.phase = .verifying)
      (hx : x.code = 1 ∨ x.code = 2 ∨ x.code = 3) (hi : makesRequest i = true) (he : e ≠ .reset) :
      Effect s e i (s.recover x)
  | idle (hs : s.phase = .awaitHeader) : Effect s .rxTimeout .hdrIdle s
  | start {b : Bytes} {h : FrameHeader} (hs : s.phase = .awaitHeader) (hm : h.magicGood = true)
      (hl : lengthInBounds s.cfg.maxFrameSize h.length = true) :
      Effect s (.rxData b) (.rsmStart h)
        { s with hdrMagic := h.magic, hdrLength := h.length, hdrChecksum := h.checksum, received := 0#31, buf := [],
                 phase := .reassembling }
  | append {b : Bytes} (hs : s.phase = .reassembling) (hi : s.incomplete = true)
      (hfits : s.received.toNat + (s.chunk b).length ≤ s.cfg.maxFrameSize.toNat) :
      Effect s (.rxData b) (.rsmAppend b) (s.appended (s.chunk b))
  | complete (hs : s.phase = .reassembling) (hc : s.complete = true) :
      Effect s .tau .rsmComplete { s with phase := .verifying }
  | pass (hs : s.phase = .verifying) (hk : s.checksumOk = true) :
      Effect s .tau .verPass { s with phase := .dispatching }
  | dispatch {p : Bytes} (hs : s.phase = .dispatching) (hp : s.payload = some p) :
      Effect s .tau .engDispatch
        { (s.emit (.frame p)).endAttempt with pending := some p, phase := .awaitHeader }
  | take {q : Phase} {p : Bytes} (hp : s.pending = some p) :
      Effect s .take (.sinkTake q) { s with pending := none, taken := s.taken ++ [p] }

/-- An operation that was selected and answers a next state has the effect of its row. -/
theorem exec_effect {s u : State} {k : Conditions} {p : Phase} {e : Event} {i : Instr} (hsel : Selects k p e i)
    (hexec : exec i s = .next u) : Effect s e i u := by
  cases hsel with
  | reset p =>
    obtain rfl := (execEngReset_eq_next_iff s u).1 hexec
    exact .reset p
  | halted =>
    obtain ⟨⟨hs, hr, ht⟩, rfl⟩ := (execEngHalted_eq_next_iff _ s u).1 hexec
    exact .halted hs hr ht
  | fatal =>
    obtain ⟨hs, rfl⟩ := (execEngFatal_eq_next_iff s u).1 hexec
    exact .fatal hs
  | shutdown =>
    obtain ⟨hs, rfl⟩ := (execEngShutdown_eq_next_iff s u).1 hexec
    exact .shutdown hs
  | short =>
    obtain ⟨⟨hs, -⟩, rfl⟩ := (execHdrShort_eq_next_iff _ s u).1 hexec
    exact .recover (.inl hs) (.inl rfl) rfl nofun
  | badMagic =>
    obtain ⟨⟨hs, -⟩, rfl⟩ := (execHdrBadmagic_eq_next_iff _ s u).1 hexec
    exact .recover (.inl hs) (.inl rfl) rfl nofun
  | reject =>
    obtain ⟨⟨hs, -⟩, rfl⟩ := (execRsmReject_eq_next_iff _ s u).1 hexec
    exact .recover (.inl hs) (.inl rfl) rfl nofun
  | start =>
    obtain ⟨⟨hs, hm, hl⟩, rfl⟩ := (execRsmStart_eq_next_iff _ s u).1 hexec
    exact .start hs hm hl
  | readError =>
    obtain ⟨hs, rfl⟩ := (execHdrReaderr_eq_next_iff s u).1 hexec
    exact .recover (.inl hs) (.inl rfl) rfl nofun
  | idle =>
    obtain ⟨⟨hs, -⟩, rfl⟩ := (execHdrIdle_eq_next_iff s u).1 hexec
    exact .idle hs
  | append =>
    obtain ⟨⟨hs, hi, hfits⟩, rfl⟩ := (execRsmAppend_eq_next_iff _ s u).1 hexec
    exact .append hs hi hfits
  | abort =>
    obtain ⟨⟨hs, -⟩, rfl⟩ := (execRsmAbort_eq_next_iff s u).1 hexec
    exact .recover (.inr (.inl hs)) (.inr (.inl rfl)) rfl nofun
  | timeout =>
    obtain ⟨⟨hs, -⟩, rfl⟩ := (execRsmTimeout_eq_next_iff s u).1 hexec
    exact .recover (.inr (.inl hs)) (.inr (.inl rfl)) rfl nofun
  | complete =>
    obtain ⟨⟨hs, hc⟩, rfl⟩ := (execRsmComplete_eq_next_iff s u).1 hexec
    exact .complete hs hc
  | pass =>
    obtain ⟨⟨hs, hk⟩, rfl⟩ := (execVerPass_eq_next_iff s u).1 hexec
    exact .pass hs hk
  | fail =>
    obtain ⟨hs, p, -, -, rfl⟩ := (execVerFail_eq_next_iff s u).1 hexec
    exact .recover (.inr (.inr hs)) (.inr (.inr rfl)) rfl nofun
  | dispatch =>
    obtain ⟨hs, p, hp, rfl⟩ := (execEngDispatch_eq_next_iff s u).1 hexec
    exact .dispatch hs hp
  | take =>
    obtain ⟨p, hp, rfl⟩ := (execSinkTake_eq_next_iff s u).1 hexec
    exact .take hp

/-- A step that answers a next state ran one row's operation, with its effect, and noted the request. -/
theorem step_effect {s t : State} (h : step s = .next t) :
    ∃ i u, Selects s.conditions s.phase s.nextEvent i ∧ Effect s.consume s.nextEvent i u ∧ t = u.noteRequest i := by
  obtain ⟨i, u, hsel, hexec, rfl⟩ := step_next_cases h
  have hrow := select_eq_ok_iff.1 hsel
  exact ⟨i, u, hrow, exec_effect hrow hexec, rfl⟩

/-! ### Rules over all operations -/

/-- Each effect keeps the phase or moves it along one edge (43_engine_loop.md R184), but for the reset. -/
theorem Effect.phase_edge {s u : State} {e : Event} {i : Instr} (h : Effect s e i u) :
    phaseEdge s.phase u.phase ∨ (e = .reset ∧ u.phase = .awaitHeader) := by
  unfold phaseEdge
  cases h with
  | reset => exact .inr ⟨rfl, rfl⟩
  | halted | idle | append | take => exact .inl (.inl rfl)
  | fatal | shutdown => simp
  | recover hs => obtain hs | hs | hs := hs <;> simp [hs]
  | start hs | complete hs | pass hs | dispatch hs => simp [hs]

/-- Settles O34: the phase of a step is that of its effect. -/
theorem phaseMovesAlongTheEdges : Obligations.PhaseMovesAlongTheEdges := by
  intro s t h
  obtain ⟨i, u, -, heff, rfl⟩ := step_effect h
  rw [State.noteRequest_phase, ← s.consume_phase]
  exact heff.phase_edge

/-- The codes of the recoverable errors are none of the reserved event's. -/
theorem ne_decodeFailure_of_code {x : OutEvent} (hx : x.code = 1 ∨ x.code = 2 ∨ x.code = 3) : x ≠ .decodeFailure := by
  rintro rfl
  simp [OutEvent.code] at hx

/-- Nor of a Sink invocation. -/
theorem ne_frame_of_code {x : OutEvent} (hx : x.code = 1 ∨ x.code = 2 ∨ x.code = 3) (p : Bytes) : x ≠ .frame p := by
  rintro rfl
  simp [OutEvent.code] at hx

/-- What a step does to the event stream (60_exceptions.md R230, R244). -/
theorem Effect.events_cases {s u : State} {e : Event} {i : Instr} (h : Effect s e i u) :
    u.events = s.events ∨ (∃ x, x ≠ .decodeFailure ∧ u.events = s.events ++ [x]) ∨ (e = .reset ∧ u.events = []) := by
  cases h with
  | reset => exact .inr (.inr ⟨rfl, rfl⟩)
  | halted | idle | start | append | complete | pass | take => exact .inl rfl
  | fatal | shutdown | dispatch => exact .inr (.inl ⟨_, OutEvent.noConfusion, rfl⟩)
  | recover _ hx => exact .inr (.inl ⟨_, ne_decodeFailure_of_code hx, State.recover_events _ _⟩)

/-- Settles O36: no effect emits twice, and only the reset starts the stream again. -/
theorem oneEventPerStep : Obligations.OneEventPerStep := by
  intro s t h
  obtain ⟨i, u, -, heff, rfl⟩ := step_effect h
  rw [State.noteRequest_events, ← s.consume_events]
  exact heff.events_cases

theorem Effect.cfg_eq {s u : State} {e : Event} {i : Instr} (h : Effect s e i u) : u.cfg = s.cfg := by
  cases h with
  | recover => exact State.recover_cfg _ _
  | _ => rfl

/-- Settles O39: no effect writes the parameters. -/
theorem parametersNeverChange : Obligations.ParametersNeverChange := by
  intro s t h
  obtain ⟨i, u, -, heff, rfl⟩ := step_effect h
  rw [State.noteRequest_cfg, heff.cfg_eq, State.consume_cfg]

/-- The writers of the mailbox (20_memory.md section 5). -/
theorem Effect.pending_cases {s u : State} {e : Event} {i : Instr} (h : Effect s e i u) :
    u.pending = s.pending ∨ (s.phase = .dispatching ∧ u.phase = .awaitHeader ∧ u.pending = s.payload) ∨
      (e = .take ∧ u.pending = none) ∨ (e = .reset ∧ u.pending = none) := by
  cases h with
  | reset => exact .inr (.inr (.inr ⟨rfl, rfl⟩))
  | take => exact .inr (.inr (.inl ⟨rfl, rfl⟩))
  | dispatch hs hp => exact .inr (.inl ⟨hs, rfl, hp.symm⟩)
  | recover => exact .inl (State.recover_pending _ _)
  | halted | fatal | shutdown | idle | start | append | complete | pass => exact .inl rfl

/-- What a step can do to the mailbox. -/
theorem step_pending_cases {s t : State} (h : step s = .next t) :
    t.pending = s.pending ∨ (s.phase = .dispatching ∧ t.phase = .awaitHeader ∧ t.pending = s.payload) ∨
      (s.nextEvent = .take ∧ t.pending = none) ∨ (s.nextEvent = .reset ∧ t.pending = none) := by
  obtain ⟨i, u, -, heff, rfl⟩ := step_effect h
  simpa using heff.pending_cases

/-- Settles O40: a changed mailbox was written by one of its three writers. -/
theorem mailboxWriters : Obligations.MailboxWriters := by
  intro s t h hne
  exact (step_pending_cases h).resolve_left hne

/-- An effect that appends a recoverable error is that error's recovery. -/
theorem Effect.eq_recover {s u : State} {e : Event} {i : Instr} {x : OutEvent} (h : Effect s e i u)
    (hu : u.events = s.events ++ [x]) (hx : x.code = 1 ∨ x.code = 2 ∨ x.code = 3) : u = s.recover x := by
  have hlast : ∀ y, u.events = s.events ++ [y] → y = x := by
    intro y hy
    simpa using hy.symm.trans hu
  cases h with
  | reset => simp at hu
  | halted | idle | start | append | complete | pass | take => simp at hu
  | fatal | shutdown | dispatch =>
    cases hlast _ rfl
    simp [OutEvent.code] at hx
  | recover => rw [hlast _ (State.recover_events _ _)]

/-- Settles O38: an appended error of these codes comes from its recovery alone. -/
theorem recoverableErrorsReturnToAwaitHeader : Obligations.RecoverableErrorsReturnToAwaitHeader := by
  intro s t x h hx hcode
  obtain ⟨i, u, -, heff, rfl⟩ := step_effect h
  rw [State.noteRequest_events, ← s.consume_events] at hx
  rw [heff.eq_recover hx hcode]
  simp

/-- An effect that appends a Sink invocation is the dispatch of the payload read. -/
theorem Effect.of_frame_event {s u : State} {e : Event} {i : Instr} {p : Bytes} (h : Effect s e i u)
    (hu : u.events = s.events ++ [.frame p]) : s.phase = .dispatching ∧ s.payload = some p ∧ u.pending = some p := by
  have hlast : ∀ y, u.events = s.events ++ [y] → y = .frame p := by
    intro y hy
    simpa using hy.symm.trans hu
  cases h with
  | reset => simp at hu
  | halted | idle | start | append | complete | pass | take => simp at hu
  | fatal | shutdown => cases hlast _ rfl
  | recover _ hx => exact absurd (hlast _ (State.recover_events _ _)) (ne_frame_of_code hx p)
  | dispatch hs hp =>
    cases hlast _ rfl
    exact ⟨hs, hp, rfl⟩

/-- With the invariant, phase 3 holds a payload whose divided CRC is the declared checksum (10_state.md R35, item 6). -/
theorem State.Inv.checksum_of_payload {s : State} (h : s.Inv) (hs : s.phase = .dispatching) {p : Bytes}
    (hp : s.payload = some p) : (((crc32 p).toNat / 100 : Nat) : Int) = s.hdrChecksum.toInt := by
  have hok : s.checksumOk = true := h.verified hs
  rw [checksumOk_of_payload hp] at hok
  exact (verify_iff p _).1 hok

/-- Settles O37: only the dispatch invokes the Sink, and phase 3 holds a verified payload. -/
theorem onlyVerifiedPayloadsDispatched : Obligations.OnlyVerifiedPayloadsDispatched := by
  intro s t p hinv h hev
  obtain ⟨i, u, -, heff, rfl⟩ := step_effect h
  rw [State.noteRequest_events, ← s.consume_events] at hev
  obtain ⟨hs, hp, hpend⟩ := heff.of_frame_event hev
  rw [State.consume_phase] at hs
  rw [State.consume_payload] at hp
  obtain ⟨h0, -, hlen, -⟩ := (payload_eq_some_iff s p).1 hp
  refine ⟨hs, hp, ?_, hinv.checksum_of_payload hs hp, hpend⟩
  rw [hlen, Int.toNat_of_nonneg h0]
  rfl

/-- Settles O58: a payload new in the mailbox was put there by the dispatch. -/
theorem mailboxHoldsVerifiedPayload : Obligations.MailboxHoldsVerifiedPayload := by
  intro s t p hinv h hp
  obtain hkept | ⟨hs, -, hpay⟩ | ⟨-, hnone⟩ | ⟨-, hnone⟩ := step_pending_cases h
  · exact .inl (hkept.symm.trans hp)
  · have hpay : s.payload = some p := hpay.symm.trans hp
    exact .inr ⟨hs, hpay, hinv.checksum_of_payload hs hpay⟩
  · cases hnone.symm.trans hp
  · cases hnone.symm.trans hp

/-! ### The buffer -/

theorem Effect.buf_wf {s u : State} {e : Event} {i : Instr} (h : Effect s e i u) (hs : s.buf.wf = true) :
    u.buf.wf = true := by
  cases h with
  | append => exact Memory.wf_writeBytes _ _ _ hs
  | recover =>
    by_cases hp : s.phase = .awaitHeader
    · rw [recover_awaitHeader s _ hp]
      exact hs
    · rw [recover_buf_of_ne s _ hp]
      rfl
  | halted | idle | complete | pass | take => exact hs
  | reset | fatal | shutdown | start | dispatch => rfl

/-- Settles O29: an append writes in rising order, and no other effect adds an entry. -/
theorem stepKeepsBufferForm : Obligations.StepKeepsBufferForm := by
  intro s t hs h
  obtain ⟨i, u, -, heff, rfl⟩ := step_effect h
  exact heff.buf_wf (by rw [State.consume_buf, hs])

/-! ### The Sink -/

theorem dispatched_append_frame (es : List OutEvent) (p : Bytes) :
    dispatched (es ++ [.frame p]) = dispatched es ++ [p] := by
  induction es with
  | nil => rfl
  | cons x es ih => cases x <;> simp [dispatched, ih]

theorem dispatched_append_of_ne (es : List OutEvent) {x : OutEvent} (hx : ∀ p, x ≠ .frame p) :
    dispatched (es ++ [x]) = dispatched es := by
  induction es with
  | nil =>
    cases x with
    | frame p => exact absurd rfl (hx p)
    | _ => rfl
  | cons y es ih => cases y <;> simp [dispatched, ih]

/-- A take moves the pending payload to the end of the takes, and a dispatch that overwrites the mailbox drops a payload
and adds one at the end (44_collaborators.md R218). -/
theorem Effect.sinkOrder {s u : State} {e : Event} {i : Instr} (h : Effect s e i u) (hs : s.SinkOrder) :
    u.SinkOrder := by
  unfold State.SinkOrder at hs ⊢
  cases h with
  | reset => exact List.nil_sublist _
  | halted | idle | start | append | complete | pass => exact hs
  | fatal | shutdown =>
    rw [State.halt_events, dispatched_append_of_ne _ (fun _ => OutEvent.noConfusion)]
    exact hs
  | recover _ hx =>
    rw [State.recover_events, dispatched_append_of_ne _ (ne_frame_of_code hx), State.recover_taken,
      State.recover_pending]
    exact hs
  | @dispatch p =>
    have htaken : s.taken.Sublist (dispatched s.events) := (List.sublist_append_left _ _).trans hs
    have hevents : dispatched (s.emit (.frame p)).events = dispatched s.events ++ [p] := dispatched_append_frame _ p
    change (s.taken ++ [p]).Sublist (dispatched (s.emit (.frame p)).events)
    rw [hevents]
    exact htaken.append (List.Sublist.refl _)
  | take hp =>
    rw [hp, Option.toList_some] at hs
    rw [Option.toList_none, List.append_nil]
    exact hs

/-- Settles O32: every effect keeps the order, and neither the trace nor the request record is part of it. -/
theorem stepKeepsSinkOrder : Obligations.StepKeepsSinkOrder := by
  intro s t hs h
  obtain ⟨i, u, -, heff, rfl⟩ := step_effect h
  refine heff.sinkOrder ?_
  rw [State.SinkOrder, State.consume_taken, State.consume_pending, State.consume_events]
  exact hs

end Sys2Proof.Machine
end

section
/-! PROOFS. The invariant of 10_state.md R35: it holds after reset, every step keeps it, and with it a step completes or
is refused by the name of its reason (43_engine_loop.md R182; 60_exceptions.md R245). -/

namespace Sys2Proof.Machine

/-! ### How a state has the invariant -/

@[simp] theorem State.noteRequest_live (i : Instr) (s : State) : (s.noteRequest i).live = s.live := rfl
@[simp] theorem State.noteRequest_collected (i : Instr) (s : State) : (s.noteRequest i).collected = s.collected := rfl

theorem live_iff (s : State) :
    s.live = true ↔ s.phase = .reassembling ∨ s.phase = .verifying ∨ s.phase = .dispatching := by
  cases hp : s.phase <;> simp [State.live, hp]

@[simp] theorem State.recover_live (s : State) (x : OutEvent) : (s.recover x).live = false := by
  simp [State.live]

/-- Outside a frame attempt the invariant asks for the cause, the count, the buffer's form and the two records only. -/
theorem inv_of_not_live {t : State} (hl : t.live = false) (hcause : t.phase = .terminal ↔ t.termCause ≠ .none)
    (hrec : t.received = 0#31) (hbuf : t.buf.wf = true)
    (hreq : ∀ m, t.request = some m → t.requests.getLast? = some m)
    (hpend : ∀ p, t.pending = some p → p.length ≤ t.cfg.maxFrameSize.toNat) : t.Inv := by
  have hno : t.live ≠ true := Bool.eq_false_iff.1 hl
  exact ⟨hcause, fun _ => hrec, fun h => absurd h hno, fun h => absurd h hno, fun h => absurd h hno,
    fun h => absurd ((live_iff t).2 (.inr h)) hno, fun h => absurd ((live_iff t).2 (.inr (.inr h))) hno,
    fun h => absurd h hno, hbuf, hreq, hpend⟩

/-- A buffer written exactly in `[0, n)` has the canonical form. -/
theorem wf_of_written {m : Memory} {n : Nat} (h : m.map Prod.fst = List.range n) : m.wf = true := by
  rw [Memory.wf_iff_pairwise, h]
  exact List.pairwise_lt_range

/-- Inside a frame attempt it asks for items 4 to 7, and the buffer's form follows from item 7. -/
theorem inv_of_live {t : State} (hl : t.live = true) (hcause : t.termCause = .none)
    (hmagic : t.hdrMagic.toInt = Config.magic) (hrec : (t.received.toNat : Int) ≤ t.lengthVal)
    (hlen : t.lengthVal ≤ t.cfg.maxFrameSize.toNat)
    (hfull : t.phase = .verifying ∨ t.phase = .dispatching → (t.received.toNat : Int) = t.lengthVal)
    (hok : t.phase = .dispatching → t.checksumOk = true)
    (hbuf : t.buf.map Prod.fst = List.range t.received.toNat)
    (hreq : ∀ m, t.request = some m → t.requests.getLast? = some m)
    (hpend : ∀ p, t.pending = some p → p.length ≤ t.cfg.maxFrameSize.toNat) : t.Inv := by
  have hnt : t.phase ≠ .terminal := by
    intro hp
    rw [State.live, hp] at hl
    cases hl
  exact ⟨⟨fun hp => absurd hp hnt, fun hc => absurd hcause hc⟩, fun h => (Bool.false_ne_true (h.symm.trans hl)).elim,
    fun _ => hmagic, fun _ => hrec, fun _ => hlen, hfull, hok, fun _ => hbuf, wf_of_written hbuf, hreq, hpend⟩

theorem State.Inv.termCause_of_ne {s : State} (h : s.Inv) (hs : s.phase ≠ .terminal) : s.termCause = .none :=
  Classical.not_not.1 (mt h.halted_iff.2 hs)

theorem State.Inv.termCause_of_live {s : State} (h : s.Inv) (hl : s.live = true) : s.termCause = .none := by
  refine h.termCause_of_ne ?_
  intro hp
  rw [State.live, hp] at hl
  cases hl

/-- A request that is noted is the last one in the record (43_engine_loop.md R181; log 13). -/
theorem last_request_of_makesRequest {i : Instr} (hi : makesRequest i = true) (u : State) (m : Nat)
    (hm : (u.noteRequest i).request = some m) : (u.noteRequest i).requests.getLast? = some m := by
  rw [State.noteRequest_request] at hm
  rw [State.noteRequest_requests, if_pos hi, hm, Option.toList_some, List.getLast?_concat]

/-- Settles O26: phase 0 with the one request it makes at once. -/
theorem invariantAtReset : Obligations.InvariantAtReset := by
  refine inv_of_not_live rfl ?_ rfl rfl ?_ ?_
  · decide
  · intro m hm
    exact hm
  · intro p hp
    cases hp

/-! ### Every step keeps the invariant -/

/-- The payload of a whole frame can be read (10_state.md R35, items 5 and 7). -/
theorem State.Inv.exists_payload {s : State} (h : s.Inv) (hs : s.phase = .verifying ∨ s.phase = .dispatching) :
    ∃ p, s.payload = some p := by
  have hfull : (s.received.toNat : Int) = s.lengthVal := h.full hs
  have hnat : s.lengthVal.toNat = s.received.toNat := by omega
  obtain ⟨p, hp⟩ := h.exists_collected ((live_iff s).2 (.inr hs))
  refine ⟨p, ?_⟩
  rw [State.payload, if_pos (by omega), hnat]
  exact hp

/-- A payload that can be read is as long as its header says. -/
theorem length_of_payload {s : State} {p : Bytes} (hp : s.payload = some p) : (p.length : Int) = s.lengthVal := by
  obtain ⟨h0, -, hlen, -⟩ := (payload_eq_some_iff s p).1 hp
  rw [hlen, Int.toNat_of_nonneg h0]

/-- Each effect, with its request noted, keeps the invariant. -/
theorem Effect.inv {s u : State} {e : Event} {i : Instr} (h : Effect s e i u) (hs : s.Inv) :
    (u.noteRequest i).Inv := by
  cases h with
  | reset p =>
    exact inv_of_not_live rfl (by simp) rfl rfl (last_request_of_makesRequest rfl _) (by simp)
  | halted | idle =>
    rw [noteRequest_of_not_makesRequest rfl]
    exact hs
  | take =>
    rw [noteRequest_of_not_makesRequest rfl]
    exact ⟨hs.halted_iff, hs.idle_received, hs.magic_good, hs.received_le, hs.length_le, hs.full, hs.verified,
      hs.written, hs.buf_wf, hs.last_request, by simp⟩
  | fatal | shutdown =>
    exact inv_of_not_live rfl (by simp) rfl rfl (last_request_of_makesRequest rfl _) hs.pending_le
  | @recover e i x hphase hx hi he =>
    have hcause : s.termCause = .none := hs.termCause_of_ne (by rintro hp; simp [hp] at hphase)
    refine inv_of_not_live (State.recover_live s x) (by simp [hcause]) (State.recover_received s x)
      ((Effect.recover hphase hx hi he).buf_wf hs.buf_wf) (last_request_of_makesRequest hi _) ?_
    rw [State.noteRequest_pending, State.noteRequest_cfg, State.recover_pending, State.recover_cfg]
    exact hs.pending_le
  | start hp hm hl =>
    obtain ⟨h0, hmax⟩ := (lengthInBounds_iff _ _).1 hl
    exact inv_of_live rfl (hs.termCause_of_ne (by simp [hp])) ((magicGood_iff _).1 hm) h0 hmax (by simp) (by simp) rfl
      (last_request_of_makesRequest rfl _) hs.pending_le
  | @append b hp hi hfits =>
    have hlive : s.live = true := (live_iff s).2 (.inl hp)
    have hrec := toNat_received_append hfits
    refine inv_of_live hlive (hs.termCause_of_live hlive) (hs.magic_good hlive) ?_ (hs.length_le hlive) (by simp [hp])
      (by simp [hp]) ?_ (last_request_of_makesRequest rfl _) hs.pending_le
    · exact hrec.symm ▸ received_add_length_chunk_le s b hi
    · exact hrec.symm ▸ Memory.offsets_writeBytes_append _ _ _ (hs.written hlive)
  | complete hp hc =>
    have hlive : s.live = true := (live_iff s).2 (.inl hp)
    exact inv_of_live rfl (hs.termCause_of_live hlive) (hs.magic_good hlive) (hs.received_le hlive) (hs.length_le hlive)
      (fun _ => (complete_iff s).1 hc) (by simp) (hs.written hlive) (last_request_of_makesRequest rfl _) hs.pending_le
  | pass hp hk =>
    have hlive : s.live = true := (live_iff s).2 (.inr (.inl hp))
    exact inv_of_live rfl (hs.termCause_of_live hlive) (hs.magic_good hlive) (hs.received_le hlive) (hs.length_le hlive)
      (fun _ => hs.full (.inl hp)) (fun _ => hk) (hs.written hlive) (last_request_of_makesRequest rfl _) hs.pending_le
  | @dispatch p hp hpay =>
    have hlive : s.live = true := (live_iff s).2 (.inr (.inr hp))
    have hcause : s.termCause = .none := hs.termCause_of_live hlive
    refine inv_of_not_live rfl (by simp [hcause]) rfl rfl (last_request_of_makesRequest rfl _) ?_
    rintro _ ⟨⟩
    have hle : (p.length : Int) ≤ s.cfg.maxFrameSize.toNat := length_of_payload hpay ▸ hs.length_le hlive
    exact Int.ofNat_le.1 hle

/-- Settles O27: the step is an effect on the state whose trace item is used up. -/
theorem stepKeepsTheInvariant : Obligations.StepKeepsTheInvariant := by
  intro s t hs h
  obtain ⟨i, u, -, heff, rfl⟩ := step_effect h
  exact heff.inv hs.consume

/-! ### The received bytes -/

@[simp] theorem State.consume_live (s : State) : s.consume.live = s.live := by
  simp [State.live]

@[simp] theorem State.consume_collected (s : State) : s.consume.collected = s.collected := by
  simp [State.collected, memRead]

@[simp] theorem State.consume_added (s : State) (e : Event) : s.consume.added e = s.added e := by
  cases e <;> simp [State.added]

/-- An append puts the chunk behind the bytes already received (41_reassembler.md R134). -/
theorem collected_append {s : State} {b p : Bytes}
    (hfits : s.received.toNat + (s.chunk b).length ≤ s.cfg.maxFrameSize.toNat) (hp : s.collected = some p) :
    (s.appended (s.chunk b)).collected = some (p ++ s.chunk b) := by
  obtain ⟨hlen, hread⟩ := (State.collected_eq_some_iff s p).1 hp
  rw [State.collected_eq_some_iff, State.appended, toNat_received_append hfits]
  refine ⟨by rw [List.length_append, hlen], fun j hj => ?_⟩
  rw [Memory.readByte_writeBytes]
  by_cases hjr : s.received.toNat ≤ j
  · rw [if_pos ⟨hjr, hj⟩, List.getElem?_append_right (by omega), hlen]
  · rw [if_neg (fun h => hjr h.1), List.getElem?_append_left (by omega)]
    exact hread j (Nat.not_le.1 hjr)

/-- What an effect that ends inside a frame attempt does to the received bytes (10_state.md R35, item 7). -/
theorem Effect.collected {s u : State} {e : Event} {i : Instr} (h : Effect s e i u) (hs : s.Inv)
    (hu : u.live = true) :
    (s.live = false → u.collected = some []) ∧
      (s.live = true → ∃ p, s.collected = some p ∧ u.collected = some (p ++ s.added e)) := by
  have kept : ∀ {e' : Event}, u.collected = s.collected → u.live = s.live → s.added e' = [] →
      (s.live = false → u.collected = some []) ∧
        (s.live = true → ∃ p, s.collected = some p ∧ u.collected = some (p ++ s.added e')) := by
    intro e' hc hl ha
    refine ⟨fun hn => (Bool.false_ne_true (hn.symm.trans (hl.symm.trans hu))).elim, fun hlive => ?_⟩
    obtain ⟨p, hp⟩ := hs.exists_collected hlive
    exact ⟨p, hp, by rw [hc, ha, List.append_nil, hp]⟩
  cases h with
  | reset | fatal | shutdown | dispatch => cases hu
  | recover => cases (State.recover_live s _).symm.trans hu
  | halted hp | idle hp =>
    rw [State.live, hp] at hu
    cases hu
  | take => exact kept rfl rfl rfl
  | complete hp => exact kept rfl (hu.trans ((live_iff s).2 (.inl hp)).symm) rfl
  | pass hp => exact kept rfl (hu.trans ((live_iff s).2 (.inr (.inl hp))).symm) rfl
  | start hp =>
    refine ⟨fun _ => rfl, fun hlive => ?_⟩
    rw [State.live, hp] at hlive
    cases hlive
  | append hp hi hfits =>
    have hlive : s.live = true := (live_iff s).2 (.inl hp)
    refine ⟨fun hn => (Bool.false_ne_true (hn.symm.trans hlive)).elim, fun _ => ?_⟩
    obtain ⟨p, hp⟩ := hs.exists_collected hlive
    exact ⟨p, hp, collected_append hfits hp⟩

/-- Settles O57: what a step collects is what its effect collects. -/
theorem bufferHoldsTheChunks : Obligations.BufferHoldsTheChunks := by
  intro s t hs h ht
  obtain ⟨i, u, -, heff, rfl⟩ := step_effect h
  simpa using heff.collected hs.consume ht

/-! ### The sequence of requests -/

/-- Which rows make no request: a take, a timeout in phase 0, and what the halted block absorbs (log 13). -/
theorem Selects.makesRequest_cases {k : Conditions} {p : Phase} {e : Event} {i : Instr} (h : Selects k p e i) :
    ((e = .take ∨ (p = .awaitHeader ∧ e = .rxTimeout)) ∧ makesRequest i = false) ∨
      ((e ≠ .take ∧ ¬ (p = .awaitHeader ∧ e = .rxTimeout)) ∧ (makesRequest i = true ∨ i = .engHalted e)) := by
  cases h with
  | take => exact .inl ⟨.inl rfl, rfl⟩
  | idle => exact .inl ⟨.inr ⟨rfl, rfl⟩, rfl⟩
  | halted _ ht => exact .inr ⟨⟨ht, by simp⟩, .inr rfl⟩
  | _ => exact .inr ⟨⟨by simp, by simp⟩, .inl rfl⟩

/-- Before its request is noted, an effect leaves the record as it is, but for the reset, which empties it. -/
theorem Effect.requests_eq {s u : State} {e : Event} {i : Instr} (h : Effect s e i u) (he : e ≠ .reset) :
    u.requests = s.requests := by
  cases h with
  | reset => exact absurd rfl he
  | recover => exact State.recover_requests _ _
  | _ => rfl

theorem Effect.eq_of_reset {s u : State} {i : Instr} (h : Effect s .reset i u) :
    u = s.resetBlock ∧ makesRequest i = true := by
  cases h with
  | reset => exact ⟨rfl, rfl⟩
  | halted _ hr => exact absurd rfl hr
  | recover _ _ _ he => exact absurd rfl he

/-- The halted block makes no request and has none outstanding. -/
theorem Effect.request_of_halted {s u : State} {e e' : Event} (h : Effect s e (.engHalted e') u) :
    u.request = none := by
  cases h with
  | halted hs => exact request_eq_none_of_terminal hs
  | recover _ _ hi => cases hi

/-- Settles O60: the record grows by what is noted, and the rows say which operations note nothing. -/
theorem stepExtendsTheRequestSequence : Obligations.StepExtendsTheRequestSequence := by
  refine ⟨rfl, fun s t h => ?_⟩
  obtain ⟨i, u, hrow, heff, rfl⟩ := step_effect h
  rw [State.noteRequest_requests, State.noteRequest_request, ← s.consume_requests]
  refine ⟨fun he => ?_, fun he => ?_, fun hr ht h0 => ?_⟩
  · rw [he] at heff
    obtain ⟨rfl, hi⟩ := heff.eq_of_reset
    rw [if_pos hi, request_of_awaitHeader (State.resetBlock_phase _)]
    rfl
  · obtain ⟨-, hi⟩ | ⟨⟨ht, h0⟩, -⟩ := hrow.makesRequest_cases
    · have hr : s.nextEvent ≠ .reset := by
        rintro hr
        simp [hr] at he
      rw [hi, heff.requests_eq hr]
      exact List.append_nil _
    · exact absurd he (not_or.2 ⟨ht, h0⟩)
  · rw [heff.requests_eq hr]
    obtain ⟨he, -⟩ | ⟨-, hi | rfl⟩ := hrow.makesRequest_cases
    · exact absurd he (not_or.2 ⟨ht, h0⟩)
    · rw [if_pos hi]
    · rw [heff.request_of_halted]
      rfl

end Sys2Proof.Machine
end

section
/-! PROOFS. When a step completes, when it waits and when it is refused (43_engine_loop.md R182; 60_exceptions.md R245;
93 U14). -/

namespace Sys2Proof.Machine

/-! ### A selected operation completes -/

/-- With the invariant, a selected operation finds every byte it reads and room for every byte it writes. -/
theorem exec_completes {s : State} {e : Event} {i : Instr} (hs : s.Inv) (h : Selects s.conditions s.phase e i) :
    ∃ u, exec i s = .next u := by
  generalize hp : s.phase = p at h
  cases h with
  | reset => exact ⟨_, (execEngReset_eq_next_iff s _).2 rfl⟩
  | halted hr ht => exact ⟨_, (execEngHalted_eq_next_iff _ s _).2 ⟨⟨hp, hr, ht⟩, rfl⟩⟩
  | fatal hne => exact ⟨_, (execEngFatal_eq_next_iff s _).2 ⟨hp ▸ hne, rfl⟩⟩
  | shutdown hne => exact ⟨_, (execEngShutdown_eq_next_iff s _).2 ⟨hp ▸ hne, rfl⟩⟩
  | short hb => exact ⟨_, (execHdrShort_eq_next_iff _ s _).2 ⟨⟨hp, hb⟩, rfl⟩⟩
  | badMagic _ hm => exact ⟨_, (execHdrBadmagic_eq_next_iff _ s _).2 ⟨⟨hp, hm⟩, rfl⟩⟩
  | reject _ hm hl => exact ⟨_, (execRsmReject_eq_next_iff _ s _).2 ⟨⟨hp, hm, hl⟩, rfl⟩⟩
  | start _ hm hl => exact ⟨_, (execRsmStart_eq_next_iff _ s _).2 ⟨⟨hp, hm, hl⟩, rfl⟩⟩
  | readError => exact ⟨_, (execHdrReaderr_eq_next_iff s _).2 ⟨hp, rfl⟩⟩
  | idle ht => exact ⟨_, (execHdrIdle_eq_next_iff s _).2 ⟨⟨hp, ht⟩, rfl⟩⟩
  | @append b hi =>
    have hmax : s.lengthVal ≤ s.cfg.maxFrameSize.toNat := hs.length_le ((live_iff s).2 (.inl hp))
    have hfits : s.received.toNat + (s.chunk b).length ≤ s.cfg.maxFrameSize.toNat :=
      Int.ofNat_le.1 (Int.le_trans (received_add_length_chunk_le s b hi) hmax)
    exact ⟨_, (execRsmAppend_eq_next_iff _ s _).2 ⟨⟨hp, hi, hfits⟩, rfl⟩⟩
  | abort hi => exact ⟨_, (execRsmAbort_eq_next_iff s _).2 ⟨⟨hp, hi⟩, rfl⟩⟩
  | timeout hi ht => exact ⟨_, (execRsmTimeout_eq_next_iff s _).2 ⟨⟨hp, hi, ht⟩, rfl⟩⟩
  | complete hc => exact ⟨_, (execRsmComplete_eq_next_iff s _).2 ⟨⟨hp, hc⟩, rfl⟩⟩
  | pass hk => exact ⟨_, (execVerPass_eq_next_iff s _).2 ⟨⟨hp, hk⟩, rfl⟩⟩
  | fail hk =>
    obtain ⟨x, hx⟩ := hs.exists_payload (.inl hp)
    exact ⟨_, (execVerFail_eq_next_iff s _).2 ⟨hp, x, hx, (checksumOk_of_payload hx).symm.trans hk, rfl⟩⟩
  | dispatch =>
    obtain ⟨x, hx⟩ := hs.exists_payload (.inr hp)
    exact ⟨_, (execEngDispatch_eq_next_iff s _).2 ⟨hp, x, hx, rfl⟩⟩
  | take _ hfull =>
    obtain ⟨x, hx⟩ := Option.isSome_iff_exists.1 hfull
    exact ⟨_, (execSinkTake_eq_next_iff s _).2 ⟨x, hx, rfl⟩⟩

theorem step_completes {s : State} {i : Instr} (hs : s.Inv) (h : Selects s.conditions s.phase s.nextEvent i) :
    ∃ t, step s = .next t := by
  obtain ⟨u, hu⟩ := exec_completes hs.consume (i := i) (by rwa [State.consume_conditions, State.consume_phase])
  exact ⟨_, step_eq_next h.select_eq hu⟩

/-! ### What is not selected -/

theorem tauEnabled_iff (s : State) :
    s.tauEnabled = true ↔
      (s.phase = .reassembling ∧ s.complete = true) ∨ s.phase = .verifying ∨ s.phase = .dispatching := by
  cases hp : s.phase <;> simp [State.tauEnabled, hp]

/-- With no internal operation enabled an engine that has not halted has no step of its own (43_engine_loop.md R182). -/
theorem select_tau_of_not_enabled {s : State} (hp : s.phase ≠ .terminal) (ht : s.tauEnabled = false) :
    select s.conditions s.phase .tau = .error .nothingToDo := by
  unfold State.tauEnabled at ht
  cases hphase : s.phase with
  | awaitHeader => rfl
  | reassembling =>
    rw [hphase] at ht
    exact if_neg (Bool.eq_false_iff.1 ht)
  | verifying | dispatching =>
    rw [hphase] at ht
    cases ht
  | terminal => exact absurd hphase hp

/-- An answer that meets no request is on no row outside the terminal phase. -/
theorem select_answer_of_no_request {s : State} {e : Event} (hp : s.phase ≠ .terminal) (he : e.isAnswer = true)
    (hr : s.request = none) : select s.conditions s.phase e = .error .answerWithoutRequest := by
  cases hphase : s.phase with
  | awaitHeader => cases (request_of_awaitHeader hphase).symm.trans hr
  | terminal => exact absurd hphase hp
  | verifying | dispatching =>
    cases e with
    | rxData | rxError | rxTimeout => rfl
    | tau | rxFatal | shutdown | reset | take => cases he
  | reassembling =>
    have hi : ¬ s.conditions.incomplete = true := by
      intro hi
      cases (request_of_incomplete hphase hi).symm.trans hr
    cases e with
    | rxData | rxError | rxTimeout => exact if_neg hi
    | tau | rxFatal | shutdown | reset | take => cases he

/-- A timeout that meets a request needs a configured one (60_exceptions.md R245). -/
theorem select_timeout_of_unconfigured {s : State} (hr : s.request.isSome = true) (hc : s.cfg.receiveTimeout = none) :
    select s.conditions s.phase .rxTimeout = .error .timeoutNotConfigured := by
  have ht : ¬ s.conditions.timeoutConfigured = true := by
    rw [State.conditions_timeoutConfigured, hc]
    exact Bool.false_ne_true
  obtain ⟨m, hm⟩ := Option.isSome_iff_exists.1 hr
  obtain ⟨hp, -⟩ | ⟨hp, hi, -⟩ := (request_eq_some_iff s m).1 hm
  · rw [hp]
    exact if_neg ht
  · rw [hp]
    exact (if_pos hi).trans (if_neg ht)

/-- Settles O44: no row is selected, and each reason has its own refusal. -/
theorem contractBreachesAreRefused : Obligations.ContractBreachesAreRefused := by
  intro s u e rest hp hin htaken he
  have hev : s.nextEvent = e := nextEvent_of_inputs hin htaken
  constructor
  · intro hr
    rw [step_of_select_error (hev.symm ▸ select_answer_of_no_request hp he hr), unselected]
  · rintro hr rfl hc
    rw [step_of_select_error (hev.symm ▸ select_timeout_of_unconfigured hr hc), unselected]

/-- A waiting engine has no internal operation: it is in phase 0, or in phase 1 with bytes missing. -/
theorem not_enabled_of_request {s : State} (hr : s.request.isSome = true) :
    s.phase ≠ .terminal ∧ s.tauEnabled = false := by
  obtain ⟨m, hm⟩ := Option.isSome_iff_exists.1 hr
  obtain ⟨hp, -⟩ | ⟨hp, hi, -⟩ := (request_eq_some_iff s m).1 hm
  · simp [hp, tauEnabled_of_awaitHeader hp]
  · have hc : s.complete = false := by
      rw [← Bool.not_eq_true, complete_iff]
      exact ne_of_lt ((incomplete_iff s).1 hi)
    simp [State.tauEnabled, hp, hc]

theorem step_tau_of_not_enabled {s : State} (he : s.nextEvent = .tau) (hp : s.phase ≠ .terminal)
    (ht : s.tauEnabled = false) : step s = .refused .noStep := by
  rw [step_of_select_error (he.symm ▸ select_tau_of_not_enabled hp ht), unselected]

/-- Settles O42: the only event left out of the list is `TAU`, which selects nothing while a request is out. -/
theorem blockedEngineWaits : Obligations.BlockedEngineWaits := by
  intro s hr
  obtain ⟨hp, ht⟩ := not_enabled_of_request hr
  constructor
  · intro hin
    exact step_tau_of_not_enabled (nextEvent_of_no_inputs hin) hp ht
  · intro e i hsel
    cases e with
    | tau => cases (select_tau_of_not_enabled hp ht).symm.trans hsel
    | _ => simp [Event.isAnswer]

/-! ### The contract -/

/-- Outside the terminal phase, an enabled event that keeps the contract can occur in the sense of R80. -/
theorem canOccur_of_contractKept {s : State} (hp : s.phase ≠ .terminal) (hk : s.contractKept = true)
    (he : s.eventEnabled = true) : eventCanOccur s.conditions s.phase s.nextEvent := by
  have hanswer : s.nextEvent.isAnswer = true →
      s.request.isSome = true ∧ (s.nextEvent ≠ .rxTimeout ∨ s.cfg.receiveTimeout.isSome = true) := by
    intro ha
    simpa [State.contractKept, hp, ha] using hk
  refine ⟨fun ht => ?_, fun ha => ?_, fun ht => ?_, fun ht => ?_⟩
  · exact (tauEnabled_iff s).1 (by simpa [State.eventEnabled, ht, hp] using he)
  · obtain ⟨m, hm⟩ := Option.isSome_iff_exists.1 (hanswer ha).1
    obtain ⟨h0, -⟩ | ⟨h1, hi, -⟩ := (request_eq_some_iff s m).1 hm
    · exact .inl h0
    · exact .inr ⟨h1, hi⟩
  · exact (hanswer (by rw [ht]; rfl)).2.resolve_left (not_not_intro ht)
  · simpa [State.eventEnabled, ht] using he

theorem exists_selects_of_contractKept {s : State} (hk : s.contractKept = true) (he : s.eventEnabled = true) :
    ∃ i, Selects s.conditions s.phase s.nextEvent i := by
  by_cases hp : s.phase = .terminal
  · rw [hp]
    exact exists_selects_of_terminal (fun ht => by simpa [State.eventEnabled, ht] using he)
  · exact exists_selects_of_canOccur (canOccur_of_contractKept hp hk he)

/-- An event that is not enabled is a `TAU` with nothing to do or a `TAKE` with nothing pending. -/
theorem not_eventEnabled_cases {s : State} (he : s.eventEnabled = false) :
    (s.nextEvent = .tau ∧ s.phase ≠ .terminal ∧ s.tauEnabled = false) ∨ (s.nextEvent = .take ∧ s.pending = none) := by
  unfold State.eventEnabled at he
  split at he
  · rename_i ht
    simp only [Bool.or_eq_false_iff, beq_eq_false_iff_ne] at he
    exact .inl ⟨ht, he.2, he.1⟩
  · rename_i ht
    exact .inr ⟨ht, Option.isNone_iff_eq_none.1 (Option.isSome_eq_false_iff.1 he)⟩
  · cases he

/-- A breach of the contract is an answer without a request, or a timeout that is not configured. -/
theorem not_contractKept_cases {s : State} (hk : s.contractKept = false) :
    s.phase ≠ .terminal ∧ s.nextEvent.isAnswer = true ∧
      (s.request = none ∨
        (s.request.isSome = true ∧ s.nextEvent = .rxTimeout ∧ s.cfg.receiveTimeout = none)) := by
  simp only [State.contractKept, Bool.or_eq_false_iff, beq_eq_false_iff_ne, Bool.not_eq_false'] at hk
  obtain ⟨⟨hp, ha⟩, hr⟩ := hk
  refine ⟨hp, ha, ?_⟩
  cases hreq : s.request with
  | none => exact .inl rfl
  | some m => exact .inr (by simpa [hreq] using hr)

/-- Settles O28: an enabled event that keeps the contract has a row, whose operation completes; the rest have none, and
the reason names the refusal. -/
theorem stepCompletesUnderContract : Obligations.StepCompletesUnderContract := by
  intro s hs
  refine ⟨fun hk he => ?_, fun _ he => ?_, fun hk => ?_⟩
  · obtain ⟨i, hi⟩ := exists_selects_of_contractKept hk he
    exact step_completes hs hi
  · obtain ⟨ht, hp, hn⟩ | ⟨ht, hpend⟩ := not_eventEnabled_cases he
    · exact step_tau_of_not_enabled ht hp hn
    · exact step_take_of_none ht hpend
  · obtain ⟨hp, ha, hr | ⟨hr, ht, hc⟩⟩ := not_contractKept_cases hk
    · exact .inl (step_of_select_error (select_answer_of_no_request hp ha hr))
    · exact .inr (step_of_select_error (ht.symm ▸ select_timeout_of_unconfigured hr hc))

end Sys2Proof.Machine
end

section
/-! PROOFS. Noninterference: the dead registers, the dead buffer and the free values never reach an observable
(10_state.md R27), and the Sink's side never reaches the engine (43_engine_loop.md R193). -/

namespace Sys2Proof.Machine

/-! ### Related outcomes -/

/-- One guard, and related outcomes behind it. -/
theorem outcomeRel_whenSelected {R : State → State → Prop} {c d : Bool} {a b : Result} (hcd : c = d)
    (h : OutcomeRel R a b) : OutcomeRel R (whenSelected c a) (whenSelected d b) := by
  subst hcd
  cases c with
  | true => exact h
  | false => exact rfl

/-- Related outcomes are of one kind. -/
theorem OutcomeRel.cases {R : State → State → Prop} {a b : Result} (h : OutcomeRel R a b) :
    (∃ s t, a = .next s ∧ b = .next t ∧ R s t) ∨ (∃ q, a = .fault q ∧ b = .fault q) ∨
      (∃ q, a = .refused q ∧ b = .refused q) := by
  cases a with
  | next s =>
    cases b with
    | next t => exact .inl ⟨s, t, rfl, rfl, h⟩
    | fault | refused => exact h.elim
  | fault q =>
    cases b with
    | fault => exact .inr (.inl ⟨q, rfl, congrArg _ h.symm⟩)
    | next | refused => exact h.elim
  | refused q =>
    cases b with
    | refused => exact .inr (.inr ⟨q, rfl, congrArg _ h.symm⟩)
    | next | fault => exact h.elim

/-- What holds of related next states carries over to the outcomes with their requests noted. -/
theorem outcomeRel_noted {R S : State → State → Prop} {i : Instr} {a b : Result} (h : OutcomeRel R a b)
    (hRS : ∀ s t, R s t → S (s.noteRequest i) (t.noteRequest i)) : OutcomeRel S (noted i a) (noted i b) := by
  obtain ⟨s, t, rfl, rfl, hst⟩ | ⟨q, rfl, rfl⟩ | ⟨q, rfl, rfl⟩ := h.cases
  · exact hRS s t hst
  · exact rfl
  · exact rfl

/-- One condition, and related outcomes on both sides. -/
theorem outcomeRel_ite {R : State → State → Prop} {c d : Prop} [Decidable c] [Decidable d] {a a' b b' : Result}
    (hcd : c ↔ d) (ha : OutcomeRel R a a') (hb : OutcomeRel R b b') :
    OutcomeRel R (if c then a else b) (if d then a' else b') := by
  by_cases hc : c
  · rw [if_pos hc, if_pos (hcd.1 hc)]
    exact ha
  · rw [if_neg hc, if_neg (mt hcd.2 hc)]
    exact hb

/-- What an operation that reads the payload does: it goes on with the bytes, or faults (42_verifier.md R164). -/
def withPayload (payload : Option Bytes) (f : Bytes → Result) : Result :=
  payload.elim (.fault .unspecifiedRead) f

theorem outcomeRel_withPayload {R : State → State → Prop} {x : Option Bytes} {f g : Bytes → Result}
    (h : ∀ p, OutcomeRel R (f p) (g p)) : OutcomeRel R (withPayload x f) (withPayload x g) := by
  cases x with
  | none => exact rfl
  | some p => exact h p

theorem execVerPass_eq (s : State) :
    execVerPass s = whenSelected (s.phase == .verifying) (withPayload s.payload fun p =>
      whenSelected (verify p s.hdrChecksum) (.next { s with phase := .dispatching })) := by
  unfold execVerPass
  cases s.payload <;> rfl

theorem execVerFail_eq (s : State) :
    execVerFail s = whenSelected (s.phase == .verifying) (withPayload s.payload fun p =>
      whenSelected (!verify p s.hdrChecksum)
        (.next (s.recover (.checksumMismatch s.hdrChecksum.toInt (checksumOf p) s.lengthVal)))) := by
  unfold execVerFail
  cases s.payload <;> rfl

theorem execEngDispatch_eq (s : State) :
    execEngDispatch s = whenSelected (s.phase == .dispatching) (withPayload s.payload fun p =>
      .next { (s.emit (.frame p)).endAttempt with pending := some p, phase := .awaitHeader }) := by
  unfold execEngDispatch
  cases s.payload <;> rfl

theorem execRsmAppend_eq (b : Bytes) (s : State) :
    execRsmAppend b s = whenSelected (s.phase == .reassembling && s.incomplete)
      (if s.received.toNat + (s.chunk b).length ≤ s.cfg.maxFrameSize.toNat then .next (s.appended (s.chunk b))
      else .fault .bufferOverrun) := by
  unfold execRsmAppend memWrite
  by_cases hfits : s.received.toNat + (s.chunk b).length ≤ s.cfg.maxFrameSize.toNat
  · rw [if_pos hfits, if_pos hfits]
    rfl
  · rw [if_neg hfits, if_neg hfits]

/-- Equal reasons are answered alike. -/
theorem outcomeRel_unselected (R : State → State → Prop) (r : DecodeError) :
    OutcomeRel R (unselected r) (unselected r) := by
  cases r <;> exact rfl

/-- Two steps that select alike are related as their operations are. -/
theorem outcomeRel_step {R S : State → State → Prop} {s t : State}
    (hsel : select s.conditions s.phase s.nextEvent = select t.conditions t.phase t.nextEvent)
    (hexec : ∀ i, select s.conditions s.phase s.nextEvent = .ok i → OutcomeRel R (exec i s.consume) (exec i t.consume))
    (hRS : ∀ i u v, R u v → S (u.noteRequest i) (v.noteRequest i)) : OutcomeRel S (step s) (step t) := by
  cases hs : select s.conditions s.phase s.nextEvent with
  | error r =>
    rw [step_of_select_error hs, step_of_select_error (hsel.symm.trans hs)]
    exact outcomeRel_unselected S r
  | ok i =>
    rw [step_of_decode ((decode_fetchWord s).trans hs),
      step_of_decode ((decode_fetchWord t).trans (hsel.symm.trans hs))]
    exact outcomeRel_noted (hexec i hs) (hRS i)

/-! ### States that agree on what lives -/

theorem not_live_iff (s : State) : s.live = false ↔ s.phase = .awaitHeader ∨ s.phase = .terminal := by
  cases hp : s.phase <;> simp [State.live, hp]

/-- Outside a frame attempt nothing is asked of the registers and the buffer. -/
theorem liveAgree_of_not_live {s t : State} (hl : s.live = false) (hphase : s.phase = t.phase)
    (hcause : s.termCause = t.termCause) (hpend : s.pending = t.pending) (hev : s.events = t.events)
    (hcfg : s.cfg = t.cfg) (hin : s.inputs = t.inputs) (htaken : s.taken = t.taken)
    (hreq : s.requests = t.requests) : LiveAgree s t :=
  ⟨hphase, hcause, hpend, hev, hcfg, hin, htaken, hreq, fun h => (Bool.false_ne_true (hl.symm.trans h)).elim⟩

/-- The counter of free values may be anything. -/
theorem liveAgree_freeCount (s : State) (n : Nat) : LiveAgree s { s with freeCount := n } :=
  ⟨rfl, rfl, rfl, rfl, rfl, rfl, rfl, rfl, fun _ => ⟨rfl, rfl, rfl, rfl, rfl⟩⟩

theorem LiveAgree.live_eq {s t : State} (h : LiveAgree s t) : s.live = t.live := by
  rw [State.live, State.live, h.phase]

theorem LiveAgree.recover {s t : State} (h : LiveAgree s t) (x : OutEvent) : LiveAgree (s.recover x) (t.recover x) := by
  refine liveAgree_of_not_live (s.recover_live x) ?_ ?_ ?_ ?_ ?_ ?_ ?_ ?_ <;>
    simp only [State.recover_phase, State.recover_termCause, State.recover_pending, State.recover_events,
      State.recover_cfg, State.recover_inputs, State.recover_taken, State.recover_requests, h.termCause, h.pending,
      h.events, h.cfg, h.inputs, h.taken, h.requests]

theorem LiveAgree.halt {s t : State} (h : LiveAgree s t) (c : TermCause) (x : OutEvent) :
    LiveAgree (s.halt c x) (t.halt c x) :=
  liveAgree_of_not_live rfl rfl rfl h.pending (congrArg (· ++ [x]) h.events) h.cfg h.inputs h.taken h.requests

theorem LiveAgree.resetBlock {s t : State} (h : LiveAgree s t) : LiveAgree s.resetBlock t.resetBlock :=
  liveAgree_of_not_live rfl rfl rfl rfl rfl h.cfg h.inputs rfl rfl

/-- Where a frame attempt is in progress the two states differ in the counter alone. -/
theorem LiveAgree.cases {s t : State} (h : LiveAgree s t) :
    (∃ n, t = { s with freeCount := n }) ∨ (s.live = false ∧ t.live = false) := by
  cases hl : s.live with
  | true => exact .inl ⟨t.freeCount, h.eq_of_live hl⟩
  | false => exact .inr ⟨rfl, h.live_eq.symm.trans hl⟩

theorem LiveAgree.request_eq {s t : State} (h : LiveAgree s t) : s.request = t.request := by
  obtain ⟨n, rfl⟩ | ⟨hs, -⟩ := h.cases
  · rfl
  · unfold State.request
    rw [← h.phase]
    obtain hp | hp := (not_live_iff s).1 hs <;> rw [hp]

theorem LiveAgree.tauEnabled_eq {s t : State} (h : LiveAgree s t) : s.tauEnabled = t.tauEnabled := by
  obtain ⟨n, rfl⟩ | ⟨hs, -⟩ := h.cases
  · rfl
  · unfold State.tauEnabled
    rw [← h.phase]
    obtain hp | hp := (not_live_iff s).1 hs <;> rw [hp]

theorem LiveAgree.nextEvent_eq {s t : State} (h : LiveAgree s t) : s.nextEvent = t.nextEvent := by
  rw [State.nextEvent, State.nextEvent, h.inputs, h.tauEnabled_eq]

theorem LiveAgree.headTaken_eq {s t : State} (h : LiveAgree s t) : s.headTaken = t.headTaken := by
  rw [State.headTaken, State.headTaken, h.inputs, h.tauEnabled_eq]

theorem LiveAgree.consume {s t : State} (h : LiveAgree s t) : LiveAgree s.consume t.consume := by
  rw [consume_eq s, consume_eq t, h.headTaken_eq]
  exact ⟨h.phase, h.termCause, h.pending, h.events, h.cfg,
    congrArg (fun is => if t.headTaken = true then List.tail is else is) h.inputs, h.taken, h.requests, h.attempt⟩

theorem LiveAgree.noteRequest {s t : State} (h : LiveAgree s t) (i : Instr) :
    LiveAgree (s.noteRequest i) (t.noteRequest i) := by
  refine ⟨h.phase, h.termCause, h.pending, h.events, h.cfg, h.inputs, h.taken, ?_, h.attempt⟩
  rw [State.noteRequest_requests, State.noteRequest_requests, h.requests, h.request_eq]

theorem LiveAgree.observation_eq {s t : State} (h : LiveAgree s t) : s.observation = t.observation := by
  rw [State.observation, State.observation, h.requests, h.request_eq, h.events, h.phase, h.termCause, h.taken]

/-- Phases 0 and 4 select by the parameters and the mailbox alone. -/
theorem select_congr_of_not_live {k l : Conditions} {p : Phase} (e : Event) (hp : p = .awaitHeader ∨ p = .terminal)
    (hmax : k.maxFrameSize = l.maxFrameSize) (htime : k.timeoutConfigured = l.timeoutConfigured)
    (hfull : k.pendingFull = l.pendingFull) : select k p e = select l p e := by
  obtain rfl | rfl := hp
  · cases e with
    | rxData b => rw [select_awaitHeader_rxData, select_awaitHeader_rxData, decodeHeader_eq, decodeHeader_eq, hmax]
    | take => simp only [select, hfull]
    | rxTimeout => simp only [select, selectAwaitHeader, htime]
    | _ => rfl
  · cases e with
    | take => simp only [select, hfull]
    | _ => rfl

theorem LiveAgree.select_eq {s t : State} (h : LiveAgree s t) :
    select s.conditions s.phase s.nextEvent = select t.conditions t.phase t.nextEvent := by
  rw [← h.phase, ← h.nextEvent_eq]
  obtain ⟨n, rfl⟩ | ⟨hs, -⟩ := h.cases
  · rfl
  · refine select_congr_of_not_live _ ((not_live_iff s).1 hs) ?_ ?_ ?_
    · rw [State.conditions_maxFrameSize, State.conditions_maxFrameSize, h.cfg]
    · rw [State.conditions_timeoutConfigured, State.conditions_timeoutConfigured, h.cfg]
    · rw [State.conditions_pendingFull, State.conditions_pendingFull, h.pending]

/-! ### The operations on states that agree -/

/-- An operation of phases 1 to 3 reads the registers only inside a frame attempt: it is enough that the counter does
not influence it, and that it is not selected elsewhere. -/
theorem liveAgree_of_attempt {f : State → Result} {s t : State} (h : LiveAgree s t)
    (hidle : ∀ u : State, u.live = false → f u = .refused .notSelected)
    (hcount : ∀ n, OutcomeRel LiveAgree (f s) (f { s with freeCount := n })) : OutcomeRel LiveAgree (f s) (f t) := by
  obtain ⟨n, rfl⟩ | ⟨hs, ht⟩ := h.cases
  · exact hcount n
  · rw [hidle s hs, hidle t ht]
    exact rfl

/-- The guard of an operation of phases 1 to 3 fails outside a frame attempt. -/
theorem phase_beq_of_not_live {s : State} (hs : s.live = false) {p : Phase}
    (hp : p = .reassembling ∨ p = .verifying ∨ p = .dispatching) : (s.phase == p) = false := by
  rw [beq_eq_false_iff_ne]
  rintro rfl
  exact Bool.false_ne_true (hs.symm.trans ((live_iff s).2 hp))

/-- No operation tells apart two states that agree on what lives. -/
theorem exec_liveAgree {s t : State} (h : LiveAgree s t) (i : Instr) :
    OutcomeRel LiveAgree (exec i s) (exec i t) := by
  cases i with
  | engReset => exact h.resetBlock
  | engHalted e => exact outcomeRel_whenSelected (by rw [h.phase]) h
  | engFatal => exact outcomeRel_whenSelected (by rw [h.phase]) (h.halt _ _)
  | engShutdown => exact outcomeRel_whenSelected (by rw [h.phase]) (h.halt _ _)
  | hdrShort b => exact outcomeRel_whenSelected (by rw [h.phase]) (h.recover _)
  | hdrBadmagic => exact outcomeRel_whenSelected (by rw [h.phase]) (h.recover _)
  | rsmReject => exact outcomeRel_whenSelected (by rw [h.phase, h.cfg]) (h.recover _)
  | hdrReaderr => exact outcomeRel_whenSelected (by rw [h.phase]) (h.recover _)
  | rsmStart hd =>
    exact outcomeRel_whenSelected (by rw [h.phase, h.cfg])
      ⟨rfl, h.termCause, h.pending, h.events, h.cfg, h.inputs, h.taken, h.requests, fun _ => ⟨rfl, rfl, rfl, rfl, rfl⟩⟩
  | hdrIdle =>
    exact outcomeRel_whenSelected (by rw [h.phase, h.cfg])
      (liveAgree_of_not_live rfl rfl h.termCause h.pending h.events h.cfg h.inputs h.taken h.requests)
  | sinkTake =>
    simp only [exec, execSinkTake, h.pending]
    cases t.pending with
    | none => exact rfl
    | some p =>
      exact ⟨h.phase, h.termCause, rfl, h.events, h.cfg, h.inputs, congrArg (· ++ [p]) h.taken, h.requests, h.attempt⟩
  | rsmAppend b =>
    refine liveAgree_of_attempt (f := execRsmAppend b) h (fun u hu => ?_) (fun n => ?_)
    · exact whenSelected_of_false (by rw [phase_beq_of_not_live hu (.inl rfl), Bool.false_and])
    · rw [execRsmAppend_eq, execRsmAppend_eq]
      exact outcomeRel_whenSelected rfl (outcomeRel_ite Iff.rfl (liveAgree_freeCount (s.appended (s.chunk b)) n) rfl)
  | rsmAbort =>
    refine liveAgree_of_attempt (f := execRsmAbort) h (fun u hu => ?_) (fun n => outcomeRel_whenSelected rfl ?_)
    · exact whenSelected_of_false (by rw [phase_beq_of_not_live hu (.inl rfl), Bool.false_and])
    · exact (liveAgree_freeCount s n).recover _
  | rsmTimeout =>
    refine liveAgree_of_attempt (f := execRsmTimeout) h (fun u hu => ?_) (fun n => outcomeRel_whenSelected rfl ?_)
    · exact whenSelected_of_false (by rw [phase_beq_of_not_live hu (.inl rfl), Bool.false_and, Bool.false_and])
    · exact (liveAgree_freeCount s n).recover _
  | rsmComplete =>
    refine liveAgree_of_attempt (f := execRsmComplete) h (fun u hu => ?_) (fun n => outcomeRel_whenSelected rfl ?_)
    · exact whenSelected_of_false (by rw [phase_beq_of_not_live hu (.inl rfl), Bool.false_and])
    · exact liveAgree_freeCount _ n
  | verPass =>
    refine liveAgree_of_attempt (f := execVerPass) h (fun u hu => ?_) (fun n => ?_)
    · exact whenSelected_of_false (phase_beq_of_not_live hu (.inr (.inl rfl)))
    · rw [execVerPass_eq, execVerPass_eq]
      exact outcomeRel_whenSelected rfl (outcomeRel_withPayload fun _ =>
        outcomeRel_whenSelected rfl (liveAgree_freeCount _ n))
  | verFail =>
    refine liveAgree_of_attempt (f := execVerFail) h (fun u hu => ?_) (fun n => ?_)
    · exact whenSelected_of_false (phase_beq_of_not_live hu (.inr (.inl rfl)))
    · rw [execVerFail_eq, execVerFail_eq]
      exact outcomeRel_whenSelected rfl (outcomeRel_withPayload fun _ =>
        outcomeRel_whenSelected rfl ((liveAgree_freeCount s n).recover _))
  | engDispatch =>
    refine liveAgree_of_attempt (f := execEngDispatch) h (fun u hu => ?_) (fun n => ?_)
    · exact whenSelected_of_false (phase_beq_of_not_live hu (.inr (.inr rfl)))
    · rw [execEngDispatch_eq, execEngDispatch_eq]
      exact outcomeRel_whenSelected rfl (outcomeRel_withPayload fun _ =>
        liveAgree_of_not_live rfl rfl rfl rfl rfl rfl rfl rfl rfl)

/-- One step of two states that agree on what lives: they stay alike. -/
theorem step_liveAgree {s t : State} (h : LiveAgree s t) : OutcomeRel LiveAgree (step s) (step t) :=
  outcomeRel_step h.select_eq (fun i _ => exec_liveAgree h.consume i) (fun i _ _ hu => hu.noteRequest i)

/-- Settles O30, by induction on the number of steps: the agreement is kept by each step, and it fixes what is seen. -/
theorem deadRegistersNeverObserved : Obligations.DeadRegistersNeverObserved := by
  intro n
  induction n with
  | zero => exact fun s t h => ⟨h, h.observation_eq⟩
  | succ n ih =>
    intro s t h
    obtain ⟨u, v, hu, hv, huv⟩ | ⟨q, hu, hv⟩ | ⟨q, hu, hv⟩ := (step_liveAgree h).cases
    · rw [runSteps_succ hu, runSteps_succ hv]
      exact ih u v huv
    · simp only [runSteps, hu, hv]
      exact rfl
    · simp only [runSteps, hu, hv]
      exact rfl

/-! ### The Sink -/

/-- The state with another mailbox and another record of takes. -/
def State.withSink (s : State) (q : Option Bytes) (k : List Bytes) : State := { s with pending := q, taken := k }

/-- States that are alike without the Sink differ in its side of the mailbox only. -/
theorem eq_withSink_of_forgetSink {s t : State} (h : s.forgetSink = t.forgetSink) :
    t = s.withSink t.pending t.taken := by
  cases s
  cases t
  simp only [State.forgetSink, State.mk.injEq] at h
  simp [State.withSink, h]

/-- Outside phase 0 a recoverable error ends the frame attempt. -/
theorem recover_of_ne {s : State} (x : OutEvent) (hp : s.phase ≠ .awaitHeader) :
    s.recover x = { (s.emit x).endAttempt with phase := .awaitHeader } := by
  unfold State.recover
  split
  · contradiction
  · rfl

theorem recover_withSink (s : State) (q : Option Bytes) (k : List Bytes) (x : OutEvent) :
    ((s.withSink q k).recover x).forgetSink = (s.recover x).forgetSink := by
  by_cases hp : s.phase = .awaitHeader
  · rw [recover_awaitHeader s x hp, recover_awaitHeader (s.withSink q k) x hp]
    rfl
  · rw [recover_of_ne x hp, recover_of_ne (s := s.withSink q k) x hp]
    rfl

/-- No operation of the engine reads the Sink's side. -/
theorem exec_withSink {i : Instr} (hi : ∀ p, i ≠ .sinkTake p) (s : State) (q : Option Bytes) (k : List Bytes) :
    OutcomeRel (fun a b => a.forgetSink = b.forgetSink) (exec i s) (exec i (s.withSink q k)) := by
  cases i with
  | sinkTake p => exact absurd rfl (hi p)
  | engReset => exact rfl
  | engHalted | engFatal | engShutdown | rsmStart | hdrIdle | rsmComplete => exact outcomeRel_whenSelected rfl rfl
  | hdrShort | hdrBadmagic | rsmReject | hdrReaderr | rsmAbort | rsmTimeout =>
    exact outcomeRel_whenSelected rfl (recover_withSink s q k _).symm
  | rsmAppend b =>
    simp only [exec, execRsmAppend_eq]
    exact outcomeRel_whenSelected rfl (outcomeRel_ite Iff.rfl rfl rfl)
  | verPass =>
    simp only [exec, execVerPass_eq]
    exact outcomeRel_whenSelected rfl (outcomeRel_withPayload fun _ => outcomeRel_whenSelected rfl rfl)
  | verFail =>
    simp only [exec, execVerFail_eq]
    exact outcomeRel_whenSelected rfl (outcomeRel_withPayload fun _ =>
      outcomeRel_whenSelected rfl (recover_withSink s q k _).symm)
  | engDispatch =>
    simp only [exec, execEngDispatch_eq]
    exact outcomeRel_whenSelected rfl (outcomeRel_withPayload fun _ => rfl)

/-- Only a take looks at the mailbox. -/
theorem select_pendingFull (k : Conditions) (f : Bool) (p : Phase) {e : Event} (he : e ≠ .take) :
    select { k with pendingFull := f } p e = select k p e := by
  cases e with
  | take => exact absurd rfl he
  | rxData b =>
    cases p with
    | awaitHeader => rw [select_awaitHeader_rxData, select_awaitHeader_rxData, decodeHeader_eq, decodeHeader_eq]
    | _ => rfl
  | _ => cases p <;> rfl

theorem conditions_withSink (s : State) (q : Option Bytes) (k : List Bytes) :
    (s.withSink q k).conditions = { s.conditions with pendingFull := q.isSome } := rfl

theorem select_withSink (s : State) (q : Option Bytes) (k : List Bytes) (p : Phase) {e : Event} (he : e ≠ .take) :
    select (s.withSink q k).conditions p e = select s.conditions p e := by
  rw [conditions_withSink, select_pendingFull _ _ p he]

theorem consume_withSink (s : State) (q : Option Bytes) (k : List Bytes) :
    (s.withSink q k).consume = s.consume.withSink q k := by
  rw [consume_eq, consume_eq s]
  rfl

theorem forgetSink_noteRequest {s t : State} (h : s.forgetSink = t.forgetSink) (i : Instr) :
    (s.noteRequest i).forgetSink = (t.noteRequest i).forgetSink := by
  rw [eq_withSink_of_forgetSink h]
  rfl

/-- A step that takes changes the Sink's side and its trace item only (44_collaborators.md R217). -/
theorem forgetSink_of_step_take {s t : State} (he : s.nextEvent = .take) (h : step s = .next t) :
    t.forgetSink = s.consume.forgetSink := by
  obtain ⟨i, u, hsel, hexec, rfl⟩ := step_next_cases h
  rw [he] at hsel
  obtain ⟨-, rfl⟩ := of_ite_eq_ok hsel
  obtain ⟨p, -, rfl⟩ := (execSinkTake_eq_next_iff _ u).1 hexec
  rw [noteRequest_of_not_makesRequest rfl]
  rfl

/-- Settles O31: the rows but a take's do not look at the mailbox, and a take writes nothing else. -/
theorem sinkDoesNotInfluenceEngine : Obligations.SinkDoesNotInfluenceEngine := by
  intro s t hst
  refine ⟨fun he => ?_, fun he s' h => forgetSink_of_step_take he h⟩
  rw [eq_withSink_of_forgetSink hst]
  refine outcomeRel_step (select_withSink s _ _ s.phase he).symm (fun i hi => ?_)
    (fun i _ _ hu => forgetSink_noteRequest hu i)
  rw [consume_withSink]
  refine exec_withSink (fun p hp => ?_) s.consume _ _
  exact he ((event_of_select hi).2 hp)

end Sys2Proof.Machine
end

section
/-! PROOFS. Reassembly: chunks that sum to the declared length leave their concatenation in the buffer, however the
payload is cut (41_reassembler.md R141). -/

namespace Sys2Proof.Machine

/-! ### The buffer after several chunks -/

theorem writeBytes_append (m : Memory) (a : Nat) (v w : Bytes) :
    m.writeBytes a (v ++ w) = (m.writeBytes a v).writeBytes (a + v.length) w := by
  induction v generalizing m a with
  | nil => rfl
  | cons x v ih =>
    rw [List.cons_append, Memory.writeBytes_cons, Memory.writeBytes_cons, ih, List.length_cons, Nat.add_right_comm,
      Nat.add_assoc]

/-- The engine is in phase 1 with `r` bytes of an accepted length to come (10_state.md R35, item 4). -/
structure Receiving (s : State) (r : Nat) : Prop where
  phase : s.phase = .reassembling
  remaining : ((s.received.toNat + r : Nat) : Int) = s.lengthVal
  length_le : s.lengthVal ≤ s.cfg.maxFrameSize.toNat

theorem Receiving.fits {s : State} {r : Nat} (h : Receiving s r) : s.received.toNat + r ≤ s.cfg.maxFrameSize.toNat :=
  Int.ofNat_le.1 (h.remaining.trans_le h.length_le)

theorem toNat_received_appended {s : State} {v : Bytes} (h : s.received.toNat + v.length ≤ s.cfg.maxFrameSize.toNat) :
    (s.appended v).received.toNat = s.received.toNat + v.length := by
  rw [State.appended, BitVec.toNat_ofNat]
  exact Nat.mod_eq_of_lt (Nat.lt_of_le_of_lt h s.cfg.maxFrameSize.isLt)

theorem appended_nil (s : State) : s.appended [] = s := by
  rw [State.appended, List.length_nil, Nat.add_zero, BitVec.ofNat_toNat, BitVec.setWidth_eq, Memory.writeBytes_nil]

/-- Storing one chunk behind another is storing both at once. -/
theorem appended_append {s : State} {v : Bytes} (w : Bytes)
    (h : s.received.toNat + v.length ≤ s.cfg.maxFrameSize.toNat) :
    (s.appended v).appended w = s.appended (v ++ w) := by
  have hrec := toNat_received_appended h
  rw [State.appended, hrec, State.appended, State.appended, writeBytes_append, List.length_append, Nat.add_assoc]

theorem Receiving.appended {s : State} {v : Bytes} {r : Nat} (h : Receiving s (v.length + r)) :
    Receiving (s.appended v) r := by
  have hfits := h.fits
  refine ⟨h.phase, ?_, h.length_le⟩
  rw [toNat_received_appended (by omega), Nat.add_assoc]
  exact h.remaining

theorem Receiving.incomplete {s : State} {r : Nat} (h : Receiving s r) (hr : 0 < r) : s.incomplete = true := by
  have hrem : ((s.received.toNat + r : Nat) : Int) = s.hdrLength.toInt := h.remaining
  rw [incomplete_iff]
  omega

theorem Receiving.complete {s : State} (h : Receiving s 0) : s.complete = true :=
  (complete_iff s).2 h.remaining

theorem Receiving.want_eq {s : State} {r : Nat} (h : Receiving s r) : s.want = min Config.maxChunkSize r := by
  have hrem := h.remaining
  rw [State.want, show (s.lengthVal - s.received.toNat).toNat = r by omega]

/-- A chunk inside the request is used whole (41_reassembler.md R134). -/
theorem Receiving.chunk_eq {s : State} {b : Bytes} {r : Nat} (h : Receiving s (b.length + r)) (hb : b.length ≤ 32767) :
    s.chunk b = b := by
  rw [State.chunk, clamp_eq_take, h.want_eq]
  exact List.take_of_length_le (Nat.le_min.2 ⟨hb, Nat.le_add_right _ _⟩)

theorem Receiving.exec_append {s : State} {b : Bytes} {r : Nat} (h : Receiving s (b.length + r))
    (hb : b.length ≤ 32767) (hpos : 0 < b.length + r) : exec (.rsmAppend b) s = .next (s.appended b) := by
  have hfits := h.fits
  have hchunk := h.chunk_eq hb
  refine (execRsmAppend_eq_next_iff b s _).2 ⟨⟨h.phase, h.incomplete hpos, ?_⟩, ?_⟩
  · rw [hchunk]
    omega
  · rw [hchunk, State.appended]

/-! ### All chunks -/

/-- Sizes of which the last is not 0 do not sum to 0. -/
theorem sum_pos_of_getLast? {ns : List Nat} (hne : ns ≠ []) (hlast : ns.getLast? ≠ some 0) : 0 < ns.sum := by
  rw [List.getLast?_eq_some_getLast hne] at hlast
  have hpos : 0 < ns.getLast hne := Nat.pos_of_ne_zero (fun h => hlast (congrArg some h))
  exact Nat.lt_of_lt_of_le hpos (List.le_sum_of_mem (List.getLast_mem hne))

theorem length_flatten_pos_of_getLast? {bs : List Bytes} (hne : bs ≠ []) (hlast : bs.getLast? ≠ some []) :
    0 < bs.flatten.length := by
  rw [List.length_flatten]
  refine sum_pos_of_getLast? (by simpa using hne) ?_
  rw [List.getLast?_map]
  intro h
  obtain ⟨b, hb, h0⟩ := Option.map_eq_some_iff.1 h
  exact hlast (hb.trans (congrArg some (List.length_eq_zero_iff.1 h0)))

/-- The last element of a tail is the last of the list. -/
theorem getLast?_ne_of_cons {α : Type} {a x : α} {l : List α} (h : (a :: l).getLast? ≠ some x) :
    l.getLast? ≠ some x := by
  cases l with
  | nil => exact nofun
  | cons b l => rwa [List.getLast?_cons_cons] at h

/-- Appending all chunks appends their concatenation, which does not depend on the cuts. -/
theorem appendAll_eq {bs : List Bytes} {s : State} (h : Receiving s bs.flatten.length)
    (hb : ∀ b ∈ bs, b.length ≤ 32767) (hlast : bs.getLast? ≠ some []) :
    appendAll bs s = .next (s.appended bs.flatten) := by
  induction bs generalizing s with
  | nil => rw [List.flatten_nil, appended_nil, appendAll]
  | cons b bs ih =>
    have hpos := length_flatten_pos_of_getLast? (List.cons_ne_nil b bs) hlast
    rw [List.flatten_cons, List.length_append] at h hpos
    have hfits := h.fits
    have hexec := h.exec_append (hb b List.mem_cons_self) hpos
    have hrest := ih h.appended (fun c hc => hb c (List.mem_cons_of_mem b hc)) (getLast?_ne_of_cons hlast)
    rw [appendAll, hexec]
    simp only
    rw [hrest, appended_append _ (by omega), List.flatten_cons]

/-- A header that was accepted, with nothing received yet. -/
theorem receiving_of_start {s : State} {n : Nat} (hp : s.phase = .reassembling) (h0 : s.received = 0#31)
    (hlen : s.lengthVal = n) (hmax : s.lengthVal ≤ s.cfg.maxFrameSize.toNat) : Receiving s n := by
  refine ⟨hp, ?_, hmax⟩
  rw [h0, hlen]
  exact congrArg Int.ofNat (Nat.zero_add n)

/-- A payload stored whole from offset 0 is the payload read. -/
theorem payload_appended {s : State} {p : Bytes} (h0 : s.received = 0#31) (h : Receiving s p.length) :
    (s.appended p).payload = some p := by
  have hlen : s.lengthVal = p.length := by
    have hrem := h.remaining
    rw [h0] at hrem
    exact hrem.symm.trans (congrArg Int.ofNat (Nat.zero_add _))
  have hz : s.received.toNat = 0 := by rw [h0]; rfl
  have hrec : (s.appended p).received.toNat = p.length := by
    rw [toNat_received_appended h.fits, hz, Nat.zero_add]
  have hbuf : (s.appended p).buf = s.buf.writeBytes 0 p := by rw [State.appended, hz]
  rw [State.payload, State.appended_lengthVal, hlen, if_pos (Int.natCast_nonneg _), Int.toNat_natCast, memRead, hrec,
    if_pos (by omega), hbuf, readBytes_writeBytes_same]

/-- Settles O54: the appends leave the concatenation from offset 0 on, which is then the payload. -/
theorem reassemblyCollectsThePayload : Obligations.ReassemblyCollectsThePayload := by
  intro s bs hp h0 hlen hmax hb hlast
  have hrecv : Receiving s bs.flatten.length := receiving_of_start hp h0 hlen hmax
  refine ⟨_, appendAll_eq hrecv hb hlast, rfl, ?_, payload_appended h0 hrecv⟩
  rw [toNat_received_appended hrecv.fits]
  exact hrecv.remaining

/-- Settles O55: each split leaves the state of one append of its concatenation. -/
theorem chunkingInvariance : Obligations.ChunkingInvariance := by
  intro s bs cs hp h0 heq hlen hmax hb hc hbl hcl
  have hrecv : Receiving s bs.flatten.length := receiving_of_start hp h0 hlen hmax
  exact ⟨_, appendAll_eq hrecv hb hbl, heq ▸ appendAll_eq (heq ▸ hrecv) hc hcl⟩

end Sys2Proof.Machine
end

section
/-! PROOFS. Frames along a trace: a verified frame is delivered by three internal steps, a shutdown comes before or after
the dispatch, and a conforming sender's frame is delivered whatever its cuts and the takes inside it (43_engine_loop.md
R183, R199; 95 V65, V66). -/

namespace Sys2Proof.Machine

/-! ### Single steps along a trace -/

theorem noteRequest_of_no_request {t : State} (h : t.request = none) (i : Instr) : t.noteRequest i = t := by
  rw [State.noteRequest, h, Option.toList_none, ite_self, List.append_nil]

/-- A step that takes the head of the trace. -/
theorem step_of_item {s t : State} {u : Bool} {e : Event} {rest : List Input} {i : Instr}
    (hin : s.inputs = ⟨u, e⟩ :: rest) (htaken : u = true ∨ s.tauEnabled = false)
    (hrow : Selects s.conditions s.phase e i) (hexec : exec i { s with inputs := rest } = .next t) :
    step s = .next (t.noteRequest i) := by
  rw [← nextEvent_of_inputs hin htaken] at hrow
  exact step_eq_next hrow.select_eq (consume_of_inputs hin htaken ▸ hexec)

/-- An internal step, taken before a plain item. -/
theorem step_internal {s t : State} {i : Instr} (ht : s.tauEnabled = true) (hin : HeadIsPlain s.inputs)
    (hrow : Selects s.conditions s.phase .tau i) (hexec : exec i s = .next t) : step s = .next (t.noteRequest i) := by
  rw [← nextEvent_of_internal ht hin] at hrow
  exact step_eq_next hrow.select_eq ((consume_of_internal ht hin).symm ▸ hexec)

theorem step_shutdown {s : State} {u : Bool} {rest : List Input} (hin : s.inputs = ⟨u, .shutdown⟩ :: rest)
    (htaken : u = true ∨ s.tauEnabled = false) (hp : s.phase ≠ .terminal) :
    step s = .next (State.halt { s with inputs := rest } .shutdown .shutdown) := by
  have hexec := (execEngShutdown_eq_next_iff { s with inputs := rest } _).2 ⟨hp, rfl⟩
  rw [step_of_item hin htaken (.shutdown hp) hexec, noteRequest_of_no_request (request_eq_none_of_terminal rfl)]

theorem step_complete {s : State} (hp : s.phase = .reassembling) (hc : s.complete = true) (hin : HeadIsPlain s.inputs) :
    step s = .next { s with phase := .verifying } := by
  have hrow : Selects s.conditions s.phase .tau .rsmComplete := hp ▸ .complete hc
  have hexec := (execRsmComplete_eq_next_iff s _).2 ⟨⟨hp, hc⟩, rfl⟩
  rw [step_internal ((tauEnabled_iff s).2 (.inl ⟨hp, hc⟩)) hin hrow hexec, noteRequest_of_no_request rfl]

theorem step_pass {s : State} (hp : s.phase = .verifying) (hk : s.checksumOk = true) (hin : HeadIsPlain s.inputs) :
    step s = .next { s with phase := .dispatching } := by
  have hrow : Selects s.conditions s.phase .tau .verPass := hp ▸ .pass hk
  have hexec := (execVerPass_eq_next_iff s _).2 ⟨⟨hp, hk⟩, rfl⟩
  rw [step_internal ((tauEnabled_iff s).2 (.inr (.inl hp))) hin hrow hexec, noteRequest_of_no_request rfl]

/-- The state once the payload `p` is with the Sink and the next header is asked for (43_engine_loop.md R192). -/
def State.delivered (s : State) (p : Bytes) : State :=
  { (s.emit (.frame p)).endAttempt with
    pending := some p
    phase := .awaitHeader
    requests := s.requests ++ [12] }

theorem step_dispatch {s : State} {p : Bytes} (hs : s.phase = .dispatching) (hp : s.payload = some p)
    (hin : HeadIsPlain s.inputs) : step s = .next (s.delivered p) := by
  have hrow : Selects s.conditions s.phase .tau .engDispatch := hs ▸ .dispatch
  have hexec := (execEngDispatch_eq_next_iff s _).2 ⟨hs, p, hp, rfl⟩
  rw [step_internal ((tauEnabled_iff s).2 (.inr (.inr hs))) hin hrow hexec]
  rfl

/-- Settles O46: an urgent shutdown halts at once; a plain one waits for the dispatch and then meets phase 0. -/
theorem shutdownBeforeOrAfterDispatch : Obligations.ShutdownBeforeOrAfterDispatch := by
  intro s p rest hs hp
  constructor
  · intro hin
    exact ⟨_, step_shutdown hin (.inl rfl) (by simp [hs]), rfl, rfl, rfl, rfl, rfl⟩
  · intro hin
    have hplain : HeadIsPlain s.inputs := by
      intro i hi
      rw [hin] at hi
      cases hi
      rfl
    have hhalt : step (s.delivered p) = _ :=
      step_shutdown (u := false) (rest := rest) hin (.inr (tauEnabled_of_awaitHeader rfl)) nofun
    refine ⟨_, (runSteps_succ (step_dispatch hs hp hplain)).trans (runSteps_succ hhalt), rfl, rfl, rfl, ?_, rfl⟩
    exact List.append_assoc _ _ _

/-! ### Runs -/

theorem runSteps_add {m n : Nat} {s t : State} (h : runSteps m s = .next t) : runSteps (m + n) s = runSteps n t := by
  induction m generalizing s with
  | zero =>
    cases h
    rw [Nat.zero_add]
  | succ m ih =>
    cases hs : step s with
    | next u =>
      rw [runSteps_succ hs] at h
      rw [Nat.add_right_comm, runSteps_succ hs, ih h]
    | fault | refused =>
      rw [runSteps, hs] at h
      cases h

/-- A complete, verified payload is with the Sink after three internal steps (43_engine_loop.md R183). -/
theorem runSteps_deliver {s : State} {p : Bytes} (hs : s.phase = .reassembling) (hc : s.complete = true)
    (hp : s.payload = some p) (hv : verify p s.hdrChecksum = true) (hin : HeadIsPlain s.inputs) :
    runSteps 3 s = .next (s.delivered p) := by
  have hpass : step { s with phase := .verifying } = .next { s with phase := .dispatching } :=
    step_pass rfl ((checksumOk_of_payload hp).trans hv) hin
  have hdispatch : step { s with phase := .dispatching } = .next (s.delivered p) := step_dispatch rfl hp hin
  rw [runSteps_succ (step_complete hs hc hin), runSteps_succ hpass, runSteps_succ hdispatch, runSteps_zero]

/-! ### Takes inside a frame -/

/-- The state after `m` takes in a row: the mailbox's one payload goes to the first (44_collaborators.md R217). -/
def State.sinkTook (s : State) (m : Nat) : State :=
  { s with pending := (s.pending.toList.drop m).head?, taken := s.taken ++ s.pending.toList.take m }

theorem sinkTook_zero (s : State) : s.sinkTook 0 = s := by
  have hpend : s.pending.toList.head? = s.pending := by cases s.pending <;> rfl
  rw [State.sinkTook, List.drop_zero, List.take_zero, List.append_nil, hpend]

/-- A mailbox holds at most one payload. -/
theorem toList_head?_drop (o : Option Bytes) (m : Nat) : (o.toList.drop m).head?.toList = o.toList.drop m := by
  cases o <;> cases m <;> simp

theorem sinkTook_pending_toList (s : State) (m : Nat) : (s.sinkTook m).pending.toList = s.pending.toList.drop m :=
  toList_head?_drop s.pending m

theorem sinkTook_taken (s : State) (m : Nat) : (s.sinkTook m).taken = s.taken ++ s.pending.toList.take m := rfl

/-- All that is taken in two rows of takes is what is taken in one. -/
theorem sinkTook_taken_add (s : State) (m n : Nat) :
    (s.sinkTook m).taken ++ (s.sinkTook m).pending.toList.take n = s.taken ++ s.pending.toList.take (m + n) := by
  rw [sinkTook_taken, sinkTook_pending_toList, List.append_assoc, List.take_add]

theorem sinkTook_sinkTook (s : State) (m n : Nat) : (s.sinkTook m).sinkTook n = s.sinkTook (m + n) := by
  rw [State.sinkTook, sinkTook_taken_add, sinkTook_pending_toList, List.drop_drop]
  rfl

theorem step_takeItem {s : State} {rest : List Input} (hin : s.inputs = takeItem :: rest) (ht : s.tauEnabled = false)
    (hp : 0 < s.pending.toList.length) : step s = .next (State.sinkTook { s with inputs := rest } 1) := by
  cases hpend : s.pending with
  | none =>
    rw [hpend] at hp
    cases hp
  | some p =>
    have hfull : s.conditions.pendingFull = true := by rw [State.conditions_pendingFull, hpend, Option.isSome_some]
    have hexec := (execSinkTake_eq_next_iff { s with inputs := rest } _).2 ⟨p, hpend, rfl⟩
    rw [step_of_item (i := .sinkTake s.phase) hin (.inr ht) (.take _ hfull) hexec, noteRequest_of_not_makesRequest rfl]
    simp [State.sinkTook]

/-! ### What the trace still brings of a frame -/

/-- The sizes cut the payload `q` into chunks a sender may send: none too long, and the last not empty. -/
structure Splits (q : Bytes) (ns : List Nat) : Prop where
  size_le : ∀ n ∈ ns, n ≤ 32767
  sum_eq : ns.sum = q.length
  last_ne : ns.getLast? ≠ some 0

theorem Splits.length_pos {q : Bytes} {n : Nat} {ns : List Nat} (h : Splits q (n :: ns)) : 0 < q.length :=
  h.sum_eq ▸ sum_pos_of_getLast? (List.cons_ne_nil n ns) h.last_ne

theorem Splits.eq_nil {q : Bytes} (h : Splits q []) : q = [] :=
  List.length_eq_zero_iff.1 h.sum_eq.symm

/-- The first chunk has the first size, and the remaining sizes split the rest. -/
theorem Splits.first {q : Bytes} {n : Nat} {ns : List Nat} (h : Splits q (n :: ns)) :
    (q.take n).length = n ∧ n + (q.drop n).length = q.length ∧ Splits (q.drop n) ns := by
  have hsum : n + ns.sum = q.length := List.sum_cons.symm.trans h.sum_eq
  have hdrop : (q.drop n).length = ns.sum := by rw [List.length_drop]; omega
  refine ⟨List.length_take_of_le (by omega), by omega, fun m hm => h.size_le m (List.mem_cons_of_mem n hm), hdrop.symm,
    getLast?_ne_of_cons h.last_ne⟩

/-- The trace of `s` starts with `items`: the frame's items `data`, the last of them at the end, among at most as many
takes as frames are pending. -/
structure Feeds (s : State) (items rest data : List Input) : Prop where
  data_eq : items.filter (· != takeItem) = data
  last_ne : items.getLast? ≠ some takeItem
  takes_le : items.count takeItem ≤ s.pending.toList.length
  inputs_eq : s.inputs = items ++ rest

/-- While items are to come, one of them is the frame's. -/
theorem Feeds.data_ne_nil {s : State} {i : Input} {items rest data : List Input} (h : Feeds s (i :: items) rest data) :
    data ≠ [] := by
  intro hnil
  have hall := List.filter_eq_nil_iff.1 (h.data_eq.trans hnil)
  have hlast := hall _ (List.getLast_mem (List.cons_ne_nil i items))
  refine h.last_ne ?_
  rw [List.getLast?_eq_some_getLast (List.cons_ne_nil i items)]
  exact congrArg some (by simpa using hlast)

/-- A take at the head: a frame is pending, and the rest is fed to the state after it. -/
theorem Feeds.after_take {s : State} {items rest data : List Input} (h : Feeds s (takeItem :: items) rest data) :
    0 < s.pending.toList.length ∧ Feeds (State.sinkTook { s with inputs := items ++ rest } 1) items rest data := by
  have hle := h.takes_le
  rw [List.count_cons_self] at hle
  refine ⟨by omega, ?_, getLast?_ne_of_cons h.last_ne, ?_, rfl⟩
  · rw [← h.data_eq, List.filter_cons_of_neg (by simp)]
  · rw [sinkTook_pending_toList, List.length_drop]
    exact Nat.le_sub_of_add_le hle

/-- The frame's own item at the head: the rest of the frame is fed to any state with that mailbox and the rest of the
trace. -/
theorem Feeds.after_data {s : State} {i j : Input} {items rest data : List Input}
    (h : Feeds s (i :: items) rest (j :: data)) (hi : i ≠ takeItem) :
    i = j ∧ (i :: items).count takeItem = items.count takeItem ∧
      ∀ t : State, t.pending = s.pending → t.inputs = items ++ rest → Feeds t items rest data := by
  have hcount : (i :: items).count takeItem = items.count takeItem := List.count_cons_of_ne hi
  have hdata := h.data_eq
  rw [List.filter_cons_of_pos (by simpa using hi)] at hdata
  obtain ⟨hij, hdata⟩ := List.cons_eq_cons.1 hdata
  refine ⟨hij, hcount, fun t hp hin => ⟨hdata, getLast?_ne_of_cons h.last_ne, ?_, hin⟩⟩
  rw [hp, ← hcount]
  exact h.takes_le

/-! ### The chunks of a frame -/

theorem receiving_request_of_pos {s : State} {r : Nat} (h : Receiving s r) (hr : 0 < r) :
    s.request = some (min Config.maxChunkSize r) := by
  rw [request_of_incomplete h.phase (h.incomplete hr), h.want_eq]

/-- The request outstanding is the first of those the remaining chunks answer (41_reassembler.md R133; 95 P4). -/
theorem request_append_tail {s : State} {q : Bytes} {ns : List Nat} (h : Receiving s q.length) (hq : Splits q ns) :
    s.request.toList ++ (frameRequests q.length ns).tail = frameRequests q.length ns := by
  cases ns with
  | nil =>
    rw [hq.eq_nil] at h
    rw [request_eq_none_of_complete h.phase h.complete]
    rfl
  | cons n ns =>
    rw [receiving_request_of_pos h hq.length_pos]
    rfl

theorem tauEnabled_of_receiving {s : State} {r : Nat} (h : Receiving s r) (hr : 0 < r) : s.tauEnabled = false :=
  (not_enabled_of_request (by rw [receiving_request_of_pos h hr, Option.isSome_some])).2

/-- The state after the chunks of `q` and `m` takes, with what is left of the trace and the requests made. -/
def State.chunksDone (s : State) (q : Bytes) (m : Nat) (rest : List Input) (reqs : List Nat) : State :=
  { (s.appended q).sinkTook m with inputs := rest, requests := reqs }

theorem chunksDone_after_take (s : State) (q : Bytes) (m : Nat) (is rest : List Input) (reqs : List Nat) :
    (State.sinkTook { s with inputs := is } 1).chunksDone q m rest reqs = s.chunksDone q (m + 1) rest reqs := by
  rw [Nat.add_comm m]
  exact congrArg (fun u : State => { u with inputs := rest, requests := reqs })
    (sinkTook_sinkTook (State.appended { s with inputs := is } q) 1 m)

/-- A chunk at the head of the trace is stored, and the engine asks for what is then missing. -/
theorem step_dataItem {s : State} {b : Bytes} {r : Nat} {rest : List Input} (h : Receiving s (b.length + r))
    (hb : b.length ≤ 32767) (hpos : 0 < b.length + r) (hin : s.inputs = dataItem b :: rest) :
    ∃ t, step s = .next t ∧ Receiving t r ∧ t.pending = s.pending ∧ t.inputs = rest ∧
      t.requests = s.requests ++ t.request.toList ∧
      ∀ w m is reqs, t.chunksDone w m is reqs = s.chunksDone (b ++ w) m is reqs := by
  have hrow : Selects s.conditions s.phase (.rxData b) (.rsmAppend b) := h.phase ▸ .append (h.incomplete hpos)
  have hrecv : Receiving { s with inputs := rest } (b.length + r) := ⟨h.phase, h.remaining, h.length_le⟩
  have hrecv' : Receiving (State.appended { s with inputs := rest } b) r := hrecv.appended
  have hfits : s.received.toNat + b.length ≤ s.cfg.maxFrameSize.toNat :=
    Nat.le_trans (Nat.add_le_add_left (Nat.le_add_right b.length r) _) h.fits
  refine ⟨_, step_of_item hin (.inr (tauEnabled_of_receiving h hpos)) hrow (hrecv.exec_append hb hpos),
    ⟨hrecv'.phase, hrecv'.remaining, hrecv'.length_le⟩, rfl, rfl, rfl, fun w m is reqs => ?_⟩
  exact congrArg (fun u : State => { u.sinkTook m with inputs := is, requests := reqs }) (appended_append w hfits)

/-- The chunks of a frame, among takes, fill the buffer with the rest of the payload. -/
theorem runSteps_chunks {items rest : List Input} {s : State} {q : Bytes} {ns : List Nat}
    (hrecv : Receiving s q.length) (hq : Splits q ns) (hfeed : Feeds s items rest ((cut q ns).map dataItem)) :
    runSteps items.length s = .next (s.chunksDone q (items.count takeItem) rest
      (s.requests ++ (frameRequests q.length ns).tail)) := by
  induction items generalizing s q ns with
  | nil =>
    cases ns with
    | cons n ns => cases hfeed.data_eq
    | nil =>
      have hin : rest = s.inputs := hfeed.inputs_eq.symm
      rw [hq.eq_nil, List.length_nil, runSteps_zero, List.count_nil, State.chunksDone, appended_nil, sinkTook_zero, hin]
      exact congrArg _ (congrArg (fun reqs => { s with requests := reqs }) (List.append_nil s.requests).symm)
  | cons i items ih =>
    cases ns with
    | nil => exact absurd rfl hfeed.data_ne_nil
    | cons n ns =>
      have hpos : 0 < q.length := hq.length_pos
      by_cases hi : i = takeItem
      · subst hi
        obtain ⟨hpend, hfeed'⟩ := hfeed.after_take
        have hstep : step s = .next (State.sinkTook { s with inputs := items ++ rest } 1) :=
          step_takeItem hfeed.inputs_eq (tauEnabled_of_receiving hrecv hpos) hpend
        have hrecv' : Receiving (State.sinkTook { s with inputs := items ++ rest } 1) q.length :=
          ⟨hrecv.phase, hrecv.remaining, hrecv.length_le⟩
        rw [List.length_cons, runSteps_succ hstep, ih hrecv' hq hfeed', chunksDone_after_take, List.count_cons_self]
        rfl
      · obtain ⟨rfl, hcount, hfeed'⟩ := hfeed.after_data hi
        obtain ⟨hlen, hsum, hq'⟩ := hq.first
        have hrecv' : Receiving s ((q.take n).length + (q.drop n).length) := by rwa [hlen, hsum]
        obtain ⟨t, hstep, ht, hpend, hin, hreqs, hdone⟩ :=
          step_dataItem hrecv' (hlen.symm ▸ hq.size_le n List.mem_cons_self) (by omega) hfeed.inputs_eq
        have hcut : (q.drop n).length = q.length - n := List.length_drop
        rw [List.length_cons, runSteps_succ hstep, ih ht hq' (hfeed' t hpend hin), hdone, List.take_append_drop, hcount,
          hreqs, List.append_assoc, request_append_tail ht hq', hcut]
        rfl

/-! ### The header of a frame -/

/-- The header a conforming sender puts before the payload `p` (30_encoding.md R96). -/
def frameHeader (p : Bytes) : FrameHeader :=
  ⟨BitVec.ofInt 32 Config.magic, BitVec.ofInt 32 p.length, BitVec.ofInt 32 (checksumOf p)⟩

theorem frameTrace_eq (p : Bytes) (ns : List Nat) :
    frameTrace p ns = dataItem (encodeHeader (frameHeader p)) :: (cut p ns).map dataItem := rfl

theorem frameHeader_magicGood (p : Bytes) : (frameHeader p).magicGood = true := by
  rw [magicGood_iff, frameHeader, BitVec.toInt_ofInt_eq_self] <;> decide

/-- A length within `MAX_FRAME_SIZE` survives its 32-bit field. -/
theorem frameHeader_length {p : Bytes} {m : BitVec 31} (hp : p.length ≤ m.toNat) :
    (frameHeader p).length.toInt = p.length := by
  have hm := m.isLt
  exact BitVec.toInt_ofInt_eq_self (by decide) (by omega) (by omega)

/-- So does a divided CRC, which is below 2^31. -/
theorem verify_frameHeader (p : Bytes) : verify p (frameHeader p).checksum = true := by
  have hle := checksumOf_le p
  have hfield : (frameHeader p).checksum.toInt = checksumOf p :=
    BitVec.toInt_ofInt_eq_self (by decide) (by omega) (by omega)
  rw [verify_iff, hfield, checksumOf_eq]

/-- The header of a conforming frame starts an attempt with nothing received, and the engine asks for the payload. -/
theorem step_headerItem {s : State} {p : Bytes} {rest : List Input} (hs : s.phase = .awaitHeader)
    (hp : p.length ≤ s.cfg.maxFrameSize.toNat) (hin : s.inputs = dataItem (encodeHeader (frameHeader p)) :: rest) :
    ∃ t, step s = .next t ∧ Receiving t p.length ∧ t.received = 0#31 ∧ t.hdrChecksum = (frameHeader p).checksum ∧
      t.requests = s.requests ++ t.request.toList ∧
      t.pending = s.pending ∧ t.inputs = rest ∧ t.termCause = s.termCause ∧ t.events = s.events ∧ t.cfg = s.cfg ∧
        t.taken = s.taken := by
  have hgood := frameHeader_magicGood p
  have hlen := frameHeader_length hp
  have hbounds : lengthInBounds s.cfg.maxFrameSize (frameHeader p).length = true := by
    rw [lengthInBounds_iff, hlen]
    omega
  have hrow : Selects s.conditions s.phase (.rxData (encodeHeader (frameHeader p))) (.rsmStart (frameHeader p)) := by
    have hdec := selects_decodeHeader s.conditions (encodeHeader (frameHeader p))
    rw [decodeHeader_encodeHeader, if_pos hgood, State.conditions_maxFrameSize, if_pos hbounds] at hdec
    rwa [hs]
  have hexec := (execRsmStart_eq_next_iff (frameHeader p) { s with inputs := rest } _).2 ⟨⟨hs, hgood, hbounds⟩, rfl⟩
  exact ⟨_, step_of_item hin (.inr (tauEnabled_of_awaitHeader hs)) hrow hexec,
    receiving_of_start rfl rfl hlen (hlen.trans_le (Int.ofNat_le.2 hp)), rfl, rfl, rfl, rfl, rfl, rfl, rfl,
    rfl, rfl⟩

/-! ### The whole frame -/

/-- The chunks and then the three internal steps, for a frame whose header was accepted. -/
theorem runSteps_frameBody {t : State} {p : Bytes} {ns : List Nat} {items rest : List Input}
    (hrecv : Receiving t p.length) (h0 : t.received = 0#31) (hck : t.hdrChecksum = (frameHeader p).checksum)
    (hp : Splits p ns) (hfeed : Feeds t items rest ((cut p ns).map dataItem)) (hrest : HeadIsPlain rest) :
    runSteps (items.length + 3) t = .next ((t.chunksDone p (items.count takeItem) rest
      (t.requests ++ (frameRequests p.length ns).tail)).delivered p) := by
  have hwhole : Receiving (t.appended p) 0 := Receiving.appended (r := 0) hrecv
  rw [runSteps_add (runSteps_chunks hrecv hp hfeed)]
  exact runSteps_deliver hrecv.phase hwhole.complete (payload_appended h0 hrecv) (hck ▸ verify_frameHeader p) hrest

/-- Two states that agree on all but the dead parts. -/
theorem eq_deadFrom {s t : State} (hphase : t.phase = s.phase) (hrec : t.received = s.received)
    (hcause : t.termCause = s.termCause) (hpend : t.pending = s.pending) (hev : t.events = s.events)
    (hcfg : t.cfg = s.cfg) (hin : t.inputs = s.inputs) (htaken : t.taken = s.taken)
    (hreq : t.requests = s.requests) : t = s.deadFrom t := by
  cases s
  cases t
  simp only at hphase hrec hcause hpend hev hcfg hin htaken hreq
  simp only [State.deadFrom, hphase, hrec, hcause, hpend, hev, hcfg, hin, htaken, hreq]

/-- A conforming frame among takes, from phase 0: takes before the header change the Sink's side only, and the header
starts the attempt that the body completes. -/
theorem runSteps_frame {s : State} {p : Bytes} {ns : List Nat} {items rest : List Input} (hs : s.phase = .awaitHeader)
    (hmax : p.length ≤ s.cfg.maxFrameSize.toNat) (hp : Splits p ns) (hfeed : Feeds s items rest (frameTrace p ns))
    (hrest : HeadIsPlain rest) :
    ∃ t, runSteps (items.length + 3) s = .next t ∧
      t = State.deadFrom { s with
        received := 0#31
        inputs := rest
        pending := some p
        events := s.events ++ [.frame p]
        taken := s.taken ++ s.pending.toList.take (items.count takeItem)
        requests := s.requests ++ frameRequests p.length ns ++ [12] } t := by
  induction items generalizing s with
  | nil => cases hfeed.data_eq
  | cons i items ih =>
    rw [List.length_cons, Nat.add_right_comm]
    by_cases hi : i = takeItem
    · subst hi
      obtain ⟨hpend, hfeed'⟩ := hfeed.after_take
      have hstep : step s = .next (State.sinkTook { s with inputs := items ++ rest } 1) :=
        step_takeItem hfeed.inputs_eq (tauEnabled_of_awaitHeader hs) hpend
      obtain ⟨t, hrun, ht⟩ := ih (s := State.sinkTook { s with inputs := items ++ rest } 1) hs hmax hfeed'
      refine ⟨t, (runSteps_succ hstep).trans hrun, ?_⟩
      rw [sinkTook_taken_add, Nat.add_comm] at ht
      rw [List.count_cons_self]
      exact ht
    · rw [frameTrace_eq] at hfeed
      obtain ⟨rfl, hcount, hfeed'⟩ := hfeed.after_data hi
      obtain ⟨t, hstep, hrecv, h0, hck, hreqs, hpend, hin, hcause, hev, hcfg, htaken⟩ :=
        step_headerItem hs hmax hfeed.inputs_eq
      have hbody := runSteps_frameBody hrecv h0 hck hp (hfeed' t hpend hin) hrest
      refine ⟨_, (runSteps_succ hstep).trans hbody, ?_⟩
      refine eq_deadFrom hs.symm rfl hcause rfl (congrArg (· ++ [OutEvent.frame p]) hev) hcfg rfl ?_ ?_
      · rw [hcount, ← htaken, ← hpend]
        rfl
      · change t.requests ++ (frameRequests p.length ns).tail ++ [12] = _
        rw [hreqs, List.append_assoc s.requests, request_append_tail hrecv hp]

/-- Settles O59: the trace feeds the frame's items to the state, among takes. -/
theorem frameIsDeliveredAmongTakes : Obligations.FrameIsDeliveredAmongTakes := by
  intro s p ns items rest hs hmax hle hsum hlast hdata hlastItem htakes hin hrest
  exact runSteps_frame hs hmax ⟨hle, hsum, hlast⟩ ⟨hdata, hlastItem, htakes, hin⟩ hrest

/-! ### The frame alone -/

/-- No item of a frame is a take. -/
theorem ne_takeItem_of_mem_frameTrace {p : Bytes} {ns : List Nat} {i : Input} (hi : i ∈ frameTrace p ns) :
    i ≠ takeItem := by
  rw [frameTrace_eq] at hi
  rintro rfl
  obtain h | h := List.mem_cons.1 hi
  · cases h
  · obtain ⟨b, -, hb⟩ := List.mem_map.1 h
    cases hb

theorem count_takeItem_frameTrace (p : Bytes) (ns : List Nat) : (frameTrace p ns).count takeItem = 0 :=
  List.count_eq_zero.2 (fun h => ne_takeItem_of_mem_frameTrace h rfl)

theorem length_cut (p : Bytes) (ns : List Nat) : (cut p ns).length = ns.length := by
  induction ns generalizing p with
  | nil => rfl
  | cons n ns ih => rw [cut, List.length_cons, ih, List.length_cons]

theorem length_frameTrace (p : Bytes) (ns : List Nat) : (frameTrace p ns).length = ns.length + 1 := by
  rw [frameTrace_eq, List.length_cons, List.length_map, length_cut]

theorem feeds_frameTrace {s : State} {p : Bytes} {ns : List Nat} {rest : List Input}
    (hin : s.inputs = frameTrace p ns ++ rest) : Feeds s (frameTrace p ns) rest (frameTrace p ns) := by
  refine ⟨?_, ?_, ?_, hin⟩
  · exact List.filter_eq_self.2 (fun i hi => bne_iff_ne.2 (ne_takeItem_of_mem_frameTrace hi))
  · intro hlast
    exact ne_takeItem_of_mem_frameTrace (List.mem_of_getLast? hlast) rfl
  · rw [count_takeItem_frameTrace]
    exact Nat.zero_le _

/-- Settles O56: the frame's trace is one among takes, with no take in it. -/
theorem conformingFrameIsDelivered : Obligations.ConformingFrameIsDelivered := by
  intro s p ns rest hs hmax hle hsum hlast hin hrest
  obtain ⟨t, hrun, ht⟩ := runSteps_frame hs hmax ⟨hle, hsum, hlast⟩ (feeds_frameTrace hin) hrest
  rw [length_frameTrace] at hrun
  rw [count_takeItem_frameTrace, List.take_zero, List.append_nil] at ht
  exact ⟨t, hrun, ht⟩

end Sys2Proof.Machine
end
